-- ==== Sys2Proof/Word.lean ====
section
/-! DEFINITION. The bit-vector types of the block and the two line roles.
Widths: 00_scope.md R6 (W_COL, W_BRT, W_CMD, BRT_FMT) and R7 (bit 0 is the least significant bit). -/

namespace Sys2Proof

/-- A colour field or a byte on the wire: 8 bits (R14, R15). -/
abbrev Byte := BitVec 8

/-- A raw brightness: 5 bits (R16). -/
abbrev RawBrt := BitVec 5

/-- The pattern of a normalized brightness operand: IEEE 754 binary64 (R52). -/
abbrev Binary64 := BitVec 64

/-- A command bundle `CMD[95:0]` (R47). -/
abbrev Bundle := BitVec 96

/-- The two line roles, clock and data (R9, R33). -/
inductive Line where
  | clk
  | dat
deriving DecidableEq, Repr

end Sys2Proof
end

