-- ==== Sys2Proof/Syntax.lean ====
section
/-! DEFINITION. The nine host commands (30_encoding.md R46), one constructor per row of the opcode
table. The operand types are the widths of R50 to R53, so every term of this type can be presented. -/

namespace Sys2Proof

/-- The command set BLINKT-CMD (R46). -/
inductive Instr where
  /-- SETUP (R85). -/
  | setup
  /-- SETPIXEL idx, r, g, b (R66). -/
  | setPixel (idx : BitVec 4) (r g b : Byte)
  /-- SETALL r, g, b (R67). -/
  | setAll (r g b : Byte)
  /-- SETBRT v (R68). -/
  | setBrt (v : Binary64)
  /-- SETPIXBRT idx, v (R69). -/
  | setPixBrt (idx : BitVec 4) (v : Binary64)
  /-- CLEAR (R70). -/
  | clear
  /-- SHOW (R86); the word `show` is Lean's own. -/
  | showCmd
  /-- CLOSE (R87, R88). -/
  | close
  /-- SETCOE en (R89). -/
  | setCoe (en : Bool)
deriving DecidableEq, Repr

end Sys2Proof
end

