-- ==== Sys2Proof/WellFormed.lean ====
section
/-! DEFINITION. What is well formed before the block sees it. A command as syntax (`Instr`) is well
formed by its types: each operand has exactly the width of its field (30_encoding.md R50 to R53). Two
things can be ill formed: a bundle that is not the canonical encoding of a command (R49, R54, R55),
and a line of source text whose operands do not fit the command it names (R59; a colour wider than
8 bits is refused at this boundary, 93_implementation_defined.md U13). -/

namespace Sys2Proof

/-- The formats of R48. -/
inductive Format where
  | n | pc | c | v | pv | e
deriving DecidableEq, Repr

/-- The bits a format uses: `op` and the fields R48 lists for it, at the places of R47. -/
def Format.usedBits : Format → Bundle
  | .n  => 0xF00000000000000000000000
  | .pc => 0xFFFFFFFF0000000000000000
  | .c  => 0xF0FFFFFF0000000000000000
  | .v  => 0xF0000000FFFFFFFFFFFFFFFF
  | .pv => 0xFF000000FFFFFFFFFFFFFFFF
  | .e  => 0xF00000010000000000000000

/-- The format of each command (R48). -/
def Instr.format : Instr → Format
  | .setup => .n
  | .setPixel _ _ _ _ => .pc
  | .setAll _ _ _ => .c
  | .setBrt _ => .v
  | .setPixBrt _ _ => .pv
  | .clear => .n
  | .showCmd => .n
  | .close => .n
  | .setCoe _ => .e

/-- The format an opcode selects, `none` for a reserved opcode (R49, R55). -/
def formatOfOpcode (op : Nat) : Option Format :=
  match op with
  | 1 => some .n
  | 2 => some .pc
  | 3 => some .c
  | 4 => some .v
  | 5 => some .pv
  | 6 => some .n
  | 7 => some .n
  | 8 => some .n
  | 9 => some .e
  | _ => none

/-- What is wrong with a bundle as a canonical encoding. -/
inductive BundleError where
  /-- The opcode is 0x0 or 0xA to 0xF (R55). -/
  | reservedOpcode
  /-- A bit the format does not use is 1 (R54): the block still takes the bundle. -/
  | unusedBitSet
deriving DecidableEq, Repr

/-- The canonical-encoding check of R54 and R55. -/
def checkBundle (w : Bundle) : Except BundleError Unit :=
  match formatOfOpcode (w.extractLsb' 92 4).toNat with
  | none => .error .reservedOpcode
  | some f => if w &&& ~~~f.usedBits = 0 then .ok () else .error .unusedBitSet

/-- A number as R59 lets a source line write it. -/
inductive Literal where
  /-- Decimal digits. -/
  | dec (n : Nat)
  /-- `0x` and that many hexadecimal digits. -/
  | hex (digits n : Nat)
  /-- A decimal real: a sign, digits as one number, and how many of them stand after the point. -/
  | real (negative : Bool) (digits places : Nat)
deriving DecidableEq, Repr

/-- A source line of R59: a mnemonic and its operands. -/
structure SourceLine where
  mnemonic : String
  operands : List Literal
deriving DecidableEq, Repr

/-- What is wrong with a source line. -/
inductive SourceError where
  /-- The mnemonic is none of the nine (R46). -/
  | unknownMnemonic
  /-- The number of operands is not the command's (R59). -/
  | operandCount
  /-- `idx` is not an integer 0 to 15 (R59). -/
  | indexRange
  /-- A colour is not an integer 0 to 255 (R59, U13). -/
  | colourRange
  /-- `v` is a hexadecimal literal of other than 16 digits (R59). -/
  | brightnessForm
  /-- `en` is not 0 or 1 (R59). -/
  | enableRange
deriving DecidableEq, Repr

/-- The value of an integer literal; `none` for a real. -/
def Literal.int? : Literal → Option Nat
  | .dec n => some n
  | .hex _ n => some n
  | .real _ _ _ => none

/-- Is the literal an integer below the bound? -/
def Literal.below (bound : Nat) (l : Literal) : Bool :=
  match l.int? with
  | some n => decide (n < bound)
  | none => false

/-- May the literal stand for a brightness: a decimal real, or a pattern of 16 hexadecimal digits? -/
def Literal.brightnessForm : Literal → Bool
  | .dec _ => true
  | .real _ _ _ => true
  | .hex digits n => decide (digits = 16 ∧ n < 2 ^ 64)

/-- The source-line check of R59. -/
def checkSource (s : SourceLine) : Except SourceError Unit :=
  match s.mnemonic, s.operands with
  | "SETUP", [] => .ok ()
  | "SETPIXEL", [i, r, g, b] =>
    if !i.below 16 then .error .indexRange
    else if r.below 256 && g.below 256 && b.below 256 then .ok () else .error .colourRange
  | "SETALL", [r, g, b] =>
    if r.below 256 && g.below 256 && b.below 256 then .ok () else .error .colourRange
  | "SETBRT", [v] => if v.brightnessForm then .ok () else .error .brightnessForm
  | "SETPIXBRT", [i, v] =>
    if !i.below 16 then .error .indexRange
    else if v.brightnessForm then .ok () else .error .brightnessForm
  | "CLEAR", [] => .ok ()
  | "SHOW", [] => .ok ()
  | "CLOSE", [] => .ok ()
  | "SETCOE", [e] => if e.below 2 then .ok () else .error .enableRange
  | m, _ =>
    if m ∈ ["SETUP", "SETPIXEL", "SETALL", "SETBRT", "SETPIXBRT", "CLEAR", "SHOW", "CLOSE", "SETCOE"]
    then .error .operandCount else .error .unknownMnemonic

end Sys2Proof
end

