-- ==== Sys2Proof/Decode.lean ====
section
/-! DEFINITION. The decoder and the encoder of the 96-bit command bundle (30_encoding.md R47 to R55).
The decoder is total: a bundle gives a command or is rejected by name. -/

namespace Sys2Proof

/-- `CMD[95:92]` (R47, R49). -/
def opField (w : Bundle) : BitVec 4 := w.extractLsb' 92 4

/-- `CMD[91:88]` (R50). -/
def idxField (w : Bundle) : BitVec 4 := w.extractLsb' 88 4

/-- `CMD[87:80]` (R51). -/
def rField (w : Bundle) : Byte := w.extractLsb' 80 8

/-- `CMD[79:72]` (R51). -/
def gField (w : Bundle) : Byte := w.extractLsb' 72 8

/-- `CMD[71:64]` (R51). -/
def bField (w : Bundle) : Byte := w.extractLsb' 64 8

/-- `CMD[64]`, bit 0 of the `b` field (R47, R53). -/
def enField (w : Bundle) : Bool := w.getLsbD 64

/-- `CMD[63:0]` (R52). -/
def vField (w : Bundle) : Binary64 := w.extractLsb' 0 64

/-- Why a bundle is no command. -/
inductive DecodeError where
  /-- The opcode is reserved: 0x0 or 0xA to 0xF (R55). -/
  | reservedOpcode (op : BitVec 4)
deriving DecidableEq, Repr

/-- The decoder: `op` alone selects the command (R49), and a field the format does not use is
ignored (R54). -/
def decode (w : Bundle) : Except DecodeError Instr :=
  match (opField w).toNat with
  | 1 => .ok .setup
  | 2 => .ok (.setPixel (idxField w) (rField w) (gField w) (bField w))
  | 3 => .ok (.setAll (rField w) (gField w) (bField w))
  | 4 => .ok (.setBrt (vField w))
  | 5 => .ok (.setPixBrt (idxField w) (vField w))
  | 6 => .ok .clear
  | 7 => .ok .showCmd
  | 8 => .ok .close
  | 9 => .ok (.setCoe (enField w))
  | _ => .error (.reservedOpcode (opField w))

/-- The six fields side by side, `op` in the most significant bits (R47). -/
def pack (op idx : BitVec 4) (r g b : Byte) (v : Binary64) : Bundle :=
  op ++ idx ++ r ++ g ++ b ++ v

/-- The canonical encoding of a command: every unused bit 0 (R49, R54). -/
def encode : Instr → Bundle
  | .setup => pack 1 0 0 0 0 0
  | .setPixel idx r g b => pack 2 idx r g b 0
  | .setAll r g b => pack 3 0 r g b 0
  | .setBrt v => pack 4 0 0 0 0 v
  | .setPixBrt idx v => pack 5 idx 0 0 0 v
  | .clear => pack 6 0 0 0 0 0
  | .showCmd => pack 7 0 0 0 0 0
  | .close => pack 8 0 0 0 0 0
  | .setCoe en => pack 9 0 0 0 (if en then 1 else 0) 0

/-- The bundle whose bits are those of the number `w`, of which the opcode table gives `nbits`. A
bundle is handed over whole (R36, R47), so there is no byte order to choose (log entry 13). -/
def bundleOfTable (nbits w : Nat) : Bundle := BitVec.ofNat 96 (w % 2 ^ nbits)

/-- The command the decoder reads from the bundle whose bits are `w`, numbered as
spec/opcode_table.json numbers them. -/
def decodeTableWord (nbits w : Nat) : Option Instr :=
  match decode (bundleOfTable nbits w) with
  | .ok i => some i
  | .error _ => none

end Sys2Proof
end

