-- ==== Sys2Proof/Config.lean ====
section
/-! DEFINITION. The parameters of the block (00_scope.md R6). A parameter the spec leaves OPEN is an
opaque constant: nothing can be proved of it that does not hold for every value it may take. -/

namespace Sys2Proof.Config

/-- `BRT_RESET`: the raw brightness of every pixel after reset (R6, R27). -/
def brtReset : RawBrt := 15

/-- The two values `SETUP_ORDER` may take (R6, R85). -/
inductive SetupOrder where
  | clkDat
  | datClk
deriving DecidableEq, Repr, Inhabited

/-- The line configured first. -/
def SetupOrder.first : SetupOrder → Line
  | .clkDat => .clk
  | .datClk => .dat

/-- The line configured second. -/
def SetupOrder.second : SetupOrder → Line
  | .clkDat => .dat
  | .datClk => .clk

/-- `SETUP_ORDER`, OPEN (R6, R85; log entry 4). -/
opaque setupOrder : SetupOrder

/-- `EXIT_INT`, OPEN, any non-zero value (R6, R111; log entry 5). -/
opaque exitInt : ℕ+

/-- `EXIT_FATAL`, OPEN (R6, R112; log entry 5). -/
opaque exitFatal : Nat

/-- `PIN_CLK`, OPEN (R6, R101; log entry 6). -/
opaque pinClk : Nat

/-- Any number: `pinDat` is made from it. -/
opaque pinDatChoice : Nat

/-- `PIN_DAT`, OPEN but for `PIN_CLK ≠ PIN_DAT` (R101; log entry 6): every value other than `pinClk`
is the value of `pinDat` for some `pinDatChoice`. -/
def pinDat : Nat := if pinDatChoice = pinClk then pinClk + 1 else pinDatChoice

/-- The pin the driver maps a line role to (R33, R101). No rule of the block depends on it. -/
def pinOf : Line → Nat
  | .clk => pinClk
  | .dat => pinDat

/-- FREE VALUE (R99; 93_implementation_defined.md U5; log entry 3): whether a failed driver call took
effect on a line all the same. The first argument is a draw number that no two failed calls of a
history share. -/
opaque failedCallTakesEffect : Nat → Line → Bool

end Sys2Proof.Config
end

