-- ==== Sys2Proof/Machine/State.lean ====
section
/-! DEFINITION. The state of the block (10_state.md), the line state the GPIO Line Driver holds for it
(R24), the trace of the run (R9, R26), and, as plain data, what the other agents will do: the inputs
of the host, of the interrupt source and of the reset line, and the oracle `fails`. -/

namespace Sys2Proof.Machine

/-- One pixel register: 29 bits (R14). -/
structure Pixel where
  R : Byte
  G : Byte
  B : Byte
  BRT : RawBrt
deriving DecidableEq, Repr

/-- Eight pixels, index 0 first (R14, R18): exactly eight, so each has its own field. -/
structure Strip where
  p0 : Pixel
  p1 : Pixel
  p2 : Pixel
  p3 : Pixel
  p4 : Pixel
  p5 : Pixel
  p6 : Pixel
  p7 : Pixel
deriving DecidableEq, Repr

/-- The controller mode (R21). -/
inductive Mode where
  | uninitialized
  | ready
  | closed
deriving DecidableEq, Repr

/-- The causes of a fatal fault with the value each records (R103 to R106). -/
inductive FatalCause where
  /-- The operand `v` as presented (R103). -/
  | invalidBrightness (v : Binary64)
  /-- The position in the trace of the failed call's event (R104). -/
  | ioFailure (n : Nat)
  /-- The operand `idx` (R105). -/
  | indexOutOfRange (idx : BitVec 4)
deriving DecidableEq, Repr

/-- The halt status (R22). -/
inductive Halt where
  | running
  | fatal (cause : FatalCause)
  | exited (status : Nat)
deriving DecidableEq, Repr

/-- What the driver holds for one line (R24). -/
structure LineState where
  configured : Bool
  /-- The last value written, or `none`: *no value*, the line has not been written since reset. -/
  level : Option Bool
deriving DecidableEq, Repr

/-- The events of a trace: one per line-driver call the block issues (R9). -/
inductive Event where
  /-- `cfg(L)`, the call `LineCfg(L)`. -/
  | cfg (l : Line)
  /-- `wr(L, b)`, the call `LineWrite(L, b)`. -/
  | wr (l : Line) (b : Bool)
  /-- `rel()`, the call `LineRelease()`. -/
  | rel
deriving DecidableEq, Repr

/-- What another agent presents to the block between commands (log entry 1). -/
inductive Input where
  /-- The host presents a bundle on the command port (R47). -/
  | command (w : Bundle)
  /-- The interrupt source raises the interrupt signal (R108, R110). -/
  | interrupt
  /-- The reset input (R120); a new run begins, with the oracle `failing` (log entry 12). -/
  | reset (failing : List Nat)
deriving DecidableEq, Repr

/-- The state of the machine. The last three fields are the model's own (log entries 1, 2, 3). -/
structure State where
  /-- The pixel registers `cur[0..7]` (R14). -/
  cur : Strip
  /-- The shadow registers `prev[0..7]` (R18). -/
  prev : Strip
  /-- The controller mode (R21). -/
  mode : Mode
  /-- The halt status (R22). -/
  halt : Halt
  /-- The clear-on-exit arm bit `coe_armed` (R23). -/
  coeArmed : Bool
  /-- The line `CLK`, held by the driver (R24). -/
  clk : LineState
  /-- The line `DAT`, held by the driver (R24). -/
  dat : LineState
  /-- The trace, oldest event first (R9, R26). -/
  trace : List Event
  /-- MODEL: what will be presented to the block, first first. -/
  inputs : List Input
  /-- MODEL: the oracle `fails` (R100), as the trace positions at which a call fails. -/
  failing : List Nat
  /-- MODEL: the number of the next free value. -/
  draws : Nat
deriving DecidableEq, Repr

/-- The machine never stops with a step-level fault: every fault of the block is fatal and its entry is
described (R102, R112), so it is a NEXT state whose `halt` is `fatal`. The type has no constructor;
that is safe, since no run is cut short by it. -/
inductive Fault where
deriving DecidableEq, Repr

/-- Why a step gives no next state: the spec gives the case no meaning and says to refuse it (R11). Each
is safe: nothing is claimed of such a run. -/
inductive Refusal where
  /-- Raised by an arm of `exec` whose command has no meaning yet; no arm of this model does. Safe. -/
  | notModelled (mnemonic : String)
  /-- Raised by a command in a mode that does not take it (R84; U2). Safe. -/
  | invalidMode (mode : Mode)
  /-- Raised by a bundle with opcode 0x0 or 0xA to 0xF (R55; U9). Safe. -/
  | reservedOpcode (op : BitVec 4)
  /-- Raised by an interrupt while `coe_armed = 0` (R109; U7). Safe. -/
  | unarmedInterrupt
  /-- Raised by a write to a line that is not configured (R95; U16); no reachable state raises it. Safe. -/
  | lineNotConfigured (l : Line)
deriving DecidableEq, Repr

/-- A pixel right after reset: black, brightness `BRT_RESET` (R27). -/
def Pixel.reset : Pixel := { R := 0, G := 0, B := 0, BRT := Config.brtReset }

/-- Eight times the same pixel. -/
def Strip.all (p : Pixel) : Strip := ⟨p, p, p, p, p, p, p, p⟩

/-- A line right after reset: not configured, no level (R29). -/
def LineState.reset : LineState := { configured := false, level := none }

/-- The machine right after reset (R27, R28, R29, R121): nothing has been presented to it yet and, in
this run, no driver call will fail (log entries 1 and 2). -/
def State.reset : State where
  cur := Strip.all Pixel.reset
  prev := Strip.all Pixel.reset
  mode := .uninitialized
  halt := .running
  coeArmed := false
  clk := LineState.reset
  dat := LineState.reset
  trace := []
  inputs := []
  failing := []
  draws := 0

end Sys2Proof.Machine
end

