-- ==== Sys2Proof/Machine/Flags.lean ====
section
/-! DEFINITION. The block's only flag, the predicate `changed` (10_state.md R20; 40_pixel_store.md R64),
and the views of the halt status the host has (42_controller.md R92; 60_exceptions.md R106). -/

namespace Sys2Proof.Machine

/-- The pixels in index order. -/
def Strip.toList (s : Strip) : List Pixel := [s.p0, s.p1, s.p2, s.p3, s.p4, s.p5, s.p6, s.p7]

/-- Do two pixels differ in any of the four fields (R20, R64)? -/
def Pixel.differs (p q : Pixel) : Bool :=
  p.R != q.R || p.G != q.G || p.B != q.B || p.BRT != q.BRT

/-- `changed()`, scanning index 0 to 7 and stopping at the first difference (R64). -/
def changedStrip (cur prev : Strip) : Bool :=
  (cur.toList.zip prev.toList).any fun pq => pq.1.differs pq.2

/-- `changed()` of a state. -/
def State.changed (s : State) : Bool := changedStrip s.cur s.prev

/-- The numbers of the causes (R106). -/
def FatalCause.code : FatalCause → Nat
  | .invalidBrightness _ => 1
  | .ioFailure _ => 2
  | .indexOutOfRange _ => 3

/-- The value a cause records, as a number (R106). -/
def FatalCause.info : FatalCause → Nat
  | .invalidBrightness v => v.toNat
  | .ioFailure n => n
  | .indexOutOfRange idx => idx.toNat

/-- What the host can observe of the block's registers (R92): `mode` and `halt`. -/
def State.status (s : State) : Mode × Halt := (s.mode, s.halt)

/-- The exit status of a run that is over (R111, R112); `none` while the block runs. -/
def State.exitStatus (s : State) : Option Nat :=
  match s.halt with
  | .running => none
  | .fatal _ => some Config.exitFatal
  | .exited n => some n

end Sys2Proof.Machine
end

