-- ==== Sys2Proof/Machine/Operands.lean ====
section
/-! DEFINITION. The operand forms: the pixel index (30_encoding.md R50) and the normalized brightness,
an IEEE 754 binary64 number (R52), with its range check and its conversion (40_pixel_store.md R61 to
R63). -/

namespace Sys2Proof.Machine

/-- The register an index operand selects, `none` for 8 to 15 (R41, R50). -/
def pixelIndex? (idx : BitVec 4) : Option (Fin 8) :=
  if h : idx.toNat < 8 then some ⟨idx.toNat, h⟩ else none

/-- The sign bit of a binary64 pattern, bit 63 (R52). -/
def binSign (v : Binary64) : Bool := v.getLsbD 63

/-- The biased exponent, bits 62 to 52 (R52). -/
def binExp (v : Binary64) : Nat := (v.extractLsb' 52 11).toNat

/-- The fraction, bits 51 to 0 (R52). -/
def binFrac (v : Binary64) : Nat := (v.extractLsb' 0 52).toNat

/-- Is the pattern a zero of either sign? -/
def binIsZero (v : Binary64) : Bool := binExp v == 0 && binFrac v == 0

/-- Is the pattern a NaN? -/
def binIsNaN (v : Binary64) : Bool := binExp v == 2047 && binFrac v != 0

/-- The significand of a finite number as an integer: the hidden bit stands for a normal number only. -/
def binSig (v : Binary64) : Nat := if binExp v = 0 then binFrac v else 2 ^ 52 + binFrac v

/-- A finite number's magnitude is `binSig v / 2 ^ binDown v` where its exponent is at most 1075, as it
is for every operand in the unit interval. -/
def binDown (v : Binary64) : Nat := 1075 - max (binExp v) 1

/-- `inUnit(v)` (R61): not a NaN, and from 0.0 to 1.0 as a number. A zero of either sign is in; another
number is in when it is positive and its exponent is below that of 1.0, or it is 1.0. -/
def inUnit (v : Binary64) : Bool :=
  binIsZero v || (!binSign v && (decide (binExp v < 1023) || (binExp v == 1023 && binFrac v == 0)))

/-- `n / d` to the nearest integer, a tie to the even one. -/
def roundHalfEven (n d : Nat) : Nat :=
  if 2 * (n % d) < d then n / d
  else if d < 2 * (n % d) then n / d + 1
  else n / d + (n / d) % 2

/-- A significand rounded to 53 bits, to nearest with ties to even: the value of the rounded product in
the units of the exact one (R62). No smaller unit exists for a subnormal, so fewer than 54 bits are kept as
they are. -/
def fl64 (p : Nat) : Nat :=
  if p < 2 ^ 53 then p
  else roundHalfEven p (2 ^ (p.log2 - 52)) * 2 ^ (p.log2 - 52)

/-- `BRT_SCALE`, the multiplier 31.0 (R6, R62). -/
def brtScale : Nat := 31

/-- The rounded product `fl64(v × 31.0)` truncated toward zero to an integer (R62). -/
def convertNat (v : Binary64) : Nat := fl64 (brtScale * binSig v) >>> binDown v

/-- `convert(v)`, the raw brightness of an operand with `inUnit v` (R62). -/
def convert (v : Binary64) : RawBrt := BitVec.ofNat 5 (convertNat v)

end Sys2Proof.Machine
end

