-- ==== Sys2Proof/Machine/Ops.lean ====
section
/-! DEFINITION. The named operations over the registers: reading and writing pixels, one update per field
of State, the attempts commands are made of, taking a fault (60_exceptions.md R112), the way out of a halt
(70_reset_and_hazards.md R120), the mode gate (42_controller.md R84) and the command port. -/

namespace Sys2Proof.Machine

/-! ### Pixel registers (R14, R17, R38) -/

/-- `cur[i]` (R8, R32). -/
def Strip.get (s : Strip) (i : Fin 8) : Pixel :=
  match i with
  | 0 => s.p0
  | 1 => s.p1
  | 2 => s.p2
  | 3 => s.p3
  | 4 => s.p4
  | 5 => s.p5
  | 6 => s.p6
  | 7 => s.p7

/-- The strip with one register replaced. -/
def Strip.set (s : Strip) (i : Fin 8) (p : Pixel) : Strip :=
  match i with
  | 0 => { s with p0 := p }
  | 1 => { s with p1 := p }
  | 2 => { s with p2 := p }
  | 3 => { s with p3 := p }
  | 4 => { s with p4 := p }
  | 5 => { s with p5 := p }
  | 6 => { s with p6 := p }
  | 7 => { s with p7 := p }

/-- The same change to each of the eight registers, as one atomic write (R67). -/
def Strip.map (f : Pixel → Pixel) (s : Strip) : Strip :=
  ⟨f s.p0, f s.p1, f s.p2, f s.p3, f s.p4, f s.p5, f s.p6, f s.p7⟩

/-- Write the field group `R`, `G`, `B` (R32); `BRT` stays. -/
def Pixel.withColour (r g b : Byte) (p : Pixel) : Pixel := { p with R := r, G := g, B := b }

/-- Write the field `BRT` (R32); the colour stays. -/
def Pixel.withBrt (n : RawBrt) (p : Pixel) : Pixel := { p with BRT := n }

/-- The colour of one register written (R66). -/
def Strip.setColour (s : Strip) (i : Fin 8) (r g b : Byte) : Strip := s.set i ((s.get i).withColour r g b)

/-- The brightness of one register written (R69). -/
def Strip.setBrt (s : Strip) (i : Fin 8) (n : RawBrt) : Strip := s.set i ((s.get i).withBrt n)

/-- The colour of every register written (R67). -/
def Strip.setAllColours (s : Strip) (r g b : Byte) : Strip := s.map (Pixel.withColour r g b)

/-- The brightness of every register written (R68). -/
def Strip.setAllBrts (s : Strip) (n : RawBrt) : Strip := s.map (Pixel.withBrt n)

/-! ### One update per field of State -/

/-- `cur` written. -/
def State.withCur (s : State) (c : Strip) : State := { s with cur := c }

/-- `prev` written. -/
def State.withPrev (s : State) (p : Strip) : State := { s with prev := p }

/-- `mode` written. -/
def State.withMode (s : State) (m : Mode) : State := { s with mode := m }

/-- `halt` written. -/
def State.withHalt (s : State) (h : Halt) : State := { s with halt := h }

/-- `coe_armed` set; nothing clears it (R23). -/
def State.arm (s : State) : State := { s with coeArmed := true }

/-- The driver's state of a line (R24). -/
def State.line (s : State) : Line → LineState
  | .clk => s.clk
  | .dat => s.dat

/-- The driver's state of a line written. -/
def State.withLine (s : State) (l : Line) (x : LineState) : State :=
  match l with
  | .clk => { s with clk := x }
  | .dat => { s with dat := x }

/-- An event appended to the trace (R9). -/
def State.logEvent (s : State) (e : Event) : State := { s with trace := s.trace ++ [e] }

/-- The inputs still to come. -/
def State.withInputs (s : State) (is : List Input) : State := { s with inputs := is }

/-- The next free value is another one. -/
def State.countDraw (s : State) : State := { s with draws := s.draws + 1 }

/-! ### Attempts: what a command does once it is accepted -/

/-- How far a command's pseudocode came (R8, R11). -/
inductive Attempt where
  /-- It ran to its end. -/
  | done (s : State)
  /-- It raised a fault; the state is the halted one, and nothing after that point happens (R8, R112). -/
  | raised (s : State)
  /-- The spec gives it no meaning (R11). -/
  | refused (r : Refusal)
deriving DecidableEq, Repr

/-- Then do the next piece of pseudocode, unless a fault was raised. -/
def Attempt.andThen (a : Attempt) (k : State → Attempt) : Attempt :=
  match a with
  | .done s => k s
  | .raised s => .raised s
  | .refused r => .refused r

/-- An attempt as the outcome of a step: completing and faulting both leave a next state. -/
def Attempt.outcome : Attempt → Host.Outcome State Fault Refusal
  | .done s => .next s
  | .raised s => .next s
  | .refused r => .refused r

/-- TAKING A FAULT (R112): `halt` becomes `Fatal(cause, info)` and nothing else changes: no state is saved,
no mode changes, no handler runs, no driver call is made. There is no return (R115). -/
def raiseFault (c : FatalCause) (s : State) : State := s.withHalt (.fatal c)

/-- THE WAY OUT OF A HALT, the reset input (R115, R120, R121): every piece of state takes its reset value and
the trace is empty. The inputs to come stay, the new run has its own oracle, and free values are not used
twice (log entry 12). -/
def resetTo (failing : List Nat) (s : State) : State :=
  { State.reset with inputs := s.inputs, failing := failing, draws := s.draws }

/-- THE GATE every command passes (R22, R84, R113 (d)): a halted block accepts no command and nothing changes
(log entry 7); a mode that does not take the command refuses it, its operands unread; otherwise its
pseudocode runs. -/
def accept (takes : Mode → Bool) (body : State → Attempt) (s : State) : Host.Outcome State Fault Refusal :=
  match s.halt with
  | .running => if takes s.mode then (body s).outcome else .refused (.invalidMode s.mode)
  | .fatal _ => .next s
  | .exited _ => .next s

/-- Is the mode Ready? -/
def Mode.isReady : Mode → Bool
  | .uninitialized => false
  | .ready => true
  | .closed => false

/-- Is the mode Uninitialized? -/
def Mode.isUninitialized : Mode → Bool
  | .uninitialized => true
  | .ready => false
  | .closed => false

/-- Is the mode one that takes CLOSE (R84)? -/
def Mode.takesClose : Mode → Bool
  | .uninitialized => false
  | .ready => true
  | .closed => true

/-- The index check of R66 and R69: a fault for 8 to 15, before any register is written (R105). -/
def withIndex (idx : BitVec 4) (k : Fin 8 → State → Attempt) (s : State) : Attempt :=
  match pixelIndex? idx with
  | some i => k i s
  | none => .raised (raiseFault (.indexOutOfRange idx) s)

/-- The brightness check and conversion of R68 and R69: a fault for an operand outside the unit interval,
before any register is written (R103). -/
def withBrightness (v : Binary64) (k : RawBrt → State → Attempt) (s : State) : Attempt :=
  if inUnit v then k (convert v) s else .raised (raiseFault (.invalidBrightness v) s)

/-- `commit()` (R65): `cur` copied into `prev`. -/
def commit (s : State) : State := s.withPrev s.cur

/-! ### The command port -/

/-- The next input, and the state once it has been taken (log entry 1). -/
def takeInput (s : State) : Option (Input × State) :=
  match s.inputs with
  | [] => none
  | i :: rest => some (i, s.withInputs rest)

/-- A bundle put on the command port as the next input (R47). -/
def presentBundle (w : Bundle) (s : State) : State := s.withInputs (.command w :: s.inputs)

/-- A bundle the decoder rejects (R55): refused, unless the block is halted and takes no command at all. -/
def rejectBundle (e : DecodeError) (s : State) : Host.Outcome State Fault Refusal :=
  match s.halt, e with
  | .running, .reservedOpcode op => .refused (.reservedOpcode op)
  | .fatal _, _ => .next s
  | .exited _, _ => .next s

end Sys2Proof.Machine
end

