-- ==== Sys2Proof/Machine/FrameEncoder.lean ====
section
/-! DEFINITION. The Frame Encoder (41_frame_encoder.md): the line writes of one frame, as the list of their
events in the order the calls are issued, and the two views of them the spec names, the pixel word (R57)
and the sampled bit stream (R10, R83). -/

namespace Sys2Proof.Machine

/-- `SOF_PULSES` (R6, R77). -/
def sofPulses : Nat := 32

/-- `EOF_PULSES` (R6, R78). -/
def eofPulses : Nat := 36

/-- `HDR` as the mask of the first byte of a word (R6, R57). -/
def headerByte : Byte := 0xE0

/-- PULSE (R73). -/
def pulse : List Event := [.wr .clk true, .wr .clk false]

/-- `n` pulses in a row. -/
def pulses : Nat → List Event
  | 0 => []
  | n + 1 => pulse ++ pulses n

/-- BIT (R74): the data line is written for every bit. -/
def sendBit (b : Bool) : List Event := .wr .dat b :: pulse

/-- Bits sent one after the other. -/
def sendBits : List Bool → List Event
  | [] => []
  | b :: bs => sendBit b ++ sendBits bs

/-- The bits of a byte, bit 7 first (R35, R75). -/
def byteBits (x : Byte) : List Bool := [7, 6, 5, 4, 3, 2, 1, 0].map fun k => x.getLsbD k

/-- BYTE (R75). -/
def sendByte (x : Byte) : List Event := sendBits (byteBits x)

/-- The first byte of a word: `0xE0 | zext_8(BRT)` (R72, R76). -/
def firstByte (p : Pixel) : Byte := headerByte ||| p.BRT.setWidth 8

/-- WORD (R76): brightness byte, B, G, R. -/
def sendWord (p : Pixel) : List Event := sendByte (firstByte p) ++ sendByte p.B ++ sendByte p.G ++ sendByte p.R

/-- The words of pixels in order. -/
def sendWords : List Pixel → List Event
  | [] => []
  | p :: ps => sendWord p ++ sendWords ps

/-- SOF (R77): the data line written once, then the pulses. -/
def sof : List Event := .wr .dat false :: pulses sofPulses

/-- EOF (R78). -/
def eof : List Event := .wr .dat false :: pulses eofPulses

/-- FRAME (R79). -/
def frame (cur : Strip) : List Event := sof ++ sendWords cur.toList ++ eof

/-- The pixel word of R57, `0b111, BRT, B, G, R` from the most significant bit down. -/
def pixelWord (p : Pixel) : BitVec 32 := (0b111 : BitVec 3) ++ p.BRT ++ p.B ++ p.G ++ p.R

/-- The bits of a word, bit 31 first (R35, R57). -/
def wordBits (w : BitVec 32) : List Bool := (List.range 32).map fun j => w.getLsbD (31 - j)

/-- The value of the last write to `l` in a trace, `start` where there is none (R24, R96). -/
def levelAfter (l : Line) (start : Option Bool) : List Event → Option Bool
  | [] => start
  | .wr l' b :: es => levelAfter l (if l' = l then some b else start) es
  | .cfg _ :: es => levelAfter l start es
  | .rel :: es => levelAfter l start es

/-- The sampled bit stream (R10, R83): at each `wr(CLK,1)`, the data level last written; `none` where none
has been written. -/
def sampleFrom (level : Option Bool) : List Event → List (Option Bool)
  | [] => []
  | .wr .dat b :: es => sampleFrom (some b) es
  | .wr .clk true :: es => level :: sampleFrom level es
  | .wr .clk false :: es => sampleFrom level es
  | .cfg _ :: es => sampleFrom level es
  | .rel :: es => sampleFrom level es

/-- The sampled bit stream of a trace. -/
def sampled (es : List Event) : List (Option Bool) := sampleFrom none es

end Sys2Proof.Machine
end

