-- ==== Sys2Proof/Machine/LineDriver.lean ====
section
/-! DEFINITION. The block's calls of the GPIO Line Driver and the driver's contract (43_line_driver.md). -/

namespace Sys2Proof.Machine

/-- What an ok call leaves on a line: `cfg(L)` configures it and sets no level (R94), `wr(L, b)` sets its
level (R95), `rel()` releases it and writes no level (R98). -/
def LineState.after (l : Line) (e : Event) (x : LineState) : LineState :=
  match e with
  | .cfg l' => if l' = l then { x with configured := true } else x
  | .wr l' b => if l' = l then { x with level := some b } else x
  | .rel => { x with configured := false }

/-- The driver state after a call, where `took l` says whether the call took effect on the line `l`. -/
def applyCall (took : Line → Bool) (e : Event) (s : State) : State :=
  let x := if took .clk then s.clk.after .clk e else s.clk
  let y := if took .dat then s.dat.after .dat e else s.dat
  (s.withLine .clk x).withLine .dat y

/-- Is the call one the contract covers? A write to a line that is not configured is not (R95, U16). -/
def uncovered (e : Event) (s : State) : Option Line :=
  match e with
  | .wr l _ => if (s.line l).configured then none else some l
  | .cfg _ => none
  | .rel => none

/-- An ok call: its event is in the trace and its effect is complete (R42, R95). -/
def callOk (e : Event) (s : State) : State := (applyCall (fun _ => true) e s).logEvent e

/-- A failed call (R99, R104): its event is in the trace, what it did to each line it concerns is a free
value (U5; log entry 3), and `IOFailure(n)` is raised, `n` the position of the event. -/
def callFailed (e : Event) (s : State) : State :=
  raiseFault (.ioFailure s.trace.length)
    ((applyCall (Config.failedCallTakesEffect s.draws) e s).logEvent e).countDraw

/-- One call of the driver (R9, R99): the oracle decides, by the position of its event, whether it fails
(R100). -/
def issueCall (e : Event) (s : State) : Attempt :=
  match uncovered e s with
  | some l => .refused (.lineNotConfigured l)
  | none => if s.failing.contains s.trace.length then .raised (callFailed e s) else .done (callOk e s)

/-- Calls one after the other, up to the first that fails (R42, R81). -/
def issueCalls : List Event → State → Attempt
  | [], s => .done s
  | e :: es, s => (issueCall e s).andThen (issueCalls es)

/-- `writeRaw(L, bits)` (R97): the writes it stands for. The block never issues it. -/
def writeRaw (l : Line) (bits : List Bool) (s : State) : Attempt := issueCalls (bits.map (Event.wr l)) s

/-- Is the call a rising edge of `CLK` on the pin (R96)? `none`: not determined, since the line has no
level yet. -/
def risingEdge? (e : Event) (s : State) : Option Bool :=
  match e with
  | .wr .clk true => s.clk.level.map (fun old => !old)
  | .wr .clk false => some false
  | .wr .dat _ => some false
  | .cfg _ => some false
  | .rel => some false

end Sys2Proof.Machine
end

