-- ==== Sys2Proof/Machine/PixelStore.lean ====
section
/-! DEFINITION. The five commands that change the Pixel State Store (40_pixel_store.md): none issues a call
of the line driver (R71). -/

namespace Sys2Proof.Machine

/-- The body of SETALL (R67). -/
def writeAllColours (r g b : Byte) (s : State) : State := s.withCur (s.cur.setAllColours r g b)

/-- The body of CLEAR (R70), also the first step of CLOSE (R87). -/
def clearColours (s : State) : State := s.withCur (s.cur.setAllColours 0 0 0)

/-- SETPIXEL idx, r, g, b (R66). -/
def execSetPixel (idx : BitVec 4) (r g b : Byte) (s : State) : Host.Outcome State Fault Refusal :=
  accept Mode.isReady (withIndex idx fun i s => .done (s.withCur (s.cur.setColour i r g b))) s

/-- SETALL r, g, b (R67). -/
def execSetAll (r g b : Byte) (s : State) : Host.Outcome State Fault Refusal :=
  accept Mode.isReady (fun s => .done (writeAllColours r g b s)) s

/-- SETBRT v (R68). -/
def execSetBrt (v : Binary64) (s : State) : Host.Outcome State Fault Refusal :=
  accept Mode.isReady (withBrightness v fun n s => .done (s.withCur (s.cur.setAllBrts n))) s

/-- SETPIXBRT idx, v (R69): the brightness is checked before the index (R113 (a)). -/
def execSetPixBrt (idx : BitVec 4) (v : Binary64) (s : State) : Host.Outcome State Fault Refusal :=
  accept Mode.isReady
    (withBrightness v fun n => withIndex idx fun i s => .done (s.withCur (s.cur.setBrt i n))) s

/-- CLEAR (R70). -/
def execClear (s : State) : Host.Outcome State Fault Refusal :=
  accept Mode.isReady (fun s => .done (clearColours s)) s

end Sys2Proof.Machine
end

