-- ==== Sys2Proof/Machine/Controller.lean ====
section
/-! DEFINITION. The Strip Controller's own commands (42_controller.md): SETUP, SHOW, CLOSE, SETCOE, and the
interrupt-driven close (60_exceptions.md R108 to R111, R116). -/

namespace Sys2Proof.Machine

/-- The two calls of SETUP, in the order `SETUP_ORDER` (R85). -/
def setupCalls (o : Config.SetupOrder) : List Event := [.cfg o.first, .cfg o.second]

/-- The body of SHOW (R86): one frame and then `commit()`, when `changed()`; else nothing. -/
def showBody (s : State) : Attempt :=
  if s.changed then (issueCalls (frame s.cur) s).andThen fun t => .done (commit t) else .done s

/-- The body of CLOSE (R87, and R88 in mode Closed). -/
def closeBody (s : State) : Attempt :=
  ((showBody (clearColours s)).andThen (issueCall .rel)).andThen fun t => .done (t.withMode .closed)

/-- SETUP (R85). -/
def execSetup (s : State) : Host.Outcome State Fault Refusal :=
  accept Mode.isUninitialized
    (fun s => (issueCalls (setupCalls Config.setupOrder) s).andThen fun t => .done (t.withMode .ready)) s

/-- SHOW (R86). -/
def execShow (s : State) : Host.Outcome State Fault Refusal := accept Mode.isReady showBody s

/-- CLOSE (R87, R88). -/
def execClose (s : State) : Host.Outcome State Fault Refusal := accept Mode.takesClose closeBody s

/-- SETCOE en (R89): `en = 0` does nothing, it does not disarm. -/
def execSetCoe (en : Bool) (s : State) : Host.Outcome State Fault Refusal :=
  accept Mode.isReady (fun s => .done (if en then s.arm else s)) s

/-- The end of an interrupt-driven close: `Exited(EXIT_INT)` when it ran to its end (R111), the fault it
raised otherwise (R116). -/
def exitAfter (a : Attempt) : Host.Outcome State Fault Refusal :=
  (a.andThen fun t => .done (t.withHalt (.exited Config.exitInt.val))).outcome

/-- TAKING THE INTERRUPT between two commands (R110, R111). A halted block does nothing (R113 (c)). While
unarmed there is no rule (R109, U7). Armed in mode Uninitialized does not occur (R30 (d)); CLOSE's own
gate refuses it there (log entry 9). -/
def takeInterrupt (s : State) : Host.Outcome State Fault Refusal :=
  match s.halt with
  | .fatal _ => .next s
  | .exited _ => .next s
  | .running =>
    if s.coeArmed then
      if s.mode.takesClose then exitAfter (closeBody s) else .refused (.invalidMode s.mode)
    else .refused .unarmedInterrupt

end Sys2Proof.Machine
end

