-- ==== Sys2Proof/Machine/Dispatch.lean ====
section
/-! DEFINITION. One arm per command (30_encoding.md R46). -/

namespace Sys2Proof.Machine

def exec (i : Instr) (s : State) : Host.Outcome State Fault Refusal :=
  match i with
  | .setup => Sys2Proof.Machine.execSetup s
  | .setPixel idx r g b => Sys2Proof.Machine.execSetPixel idx r g b s
  | .setAll r g b => Sys2Proof.Machine.execSetAll r g b s
  | .setBrt v => Sys2Proof.Machine.execSetBrt v s
  | .setPixBrt idx v => Sys2Proof.Machine.execSetPixBrt idx v s
  | .clear => Sys2Proof.Machine.execClear s
  | .showCmd => Sys2Proof.Machine.execShow s
  | .close => Sys2Proof.Machine.execClose s
  | .setCoe en => Sys2Proof.Machine.execSetCoe en s

end Sys2Proof.Machine
end

