-- ==== Sys2Proof/Machine/Step.lean ====
section
/-! DEFINITION. One step: the next input is taken and acted on to its end (20_memory.md R39). -/

namespace Sys2Proof.Machine

/-- One step of the machine. With no input the block is idle and nothing changes (R121). -/
def step (s : State) : Host.Outcome State Fault Refusal :=
  match takeInput s with
  | none => .next s
  | some (.reset failing, t) => .next (resetTo failing t)
  | some (.interrupt, t) => takeInterrupt t
  | some (.command w, t) =>
    match decode w with
    | .ok i => exec i t
    | .error e => rejectBundle e t

/-- `s` with the command whose bits are `w` presented as the next input. -/
def State.withFetchWord (s : State) (nbits w : Nat) : State := presentBundle (bundleOfTable nbits w) s

end Sys2Proof.Machine
end

