-- ==== Sys2Proof/Laws/State.lean ====
section
/-! SUPPORT. One lemma per field of State and per update, so that no proof unfolds an update. -/

namespace Sys2Proof.Machine

@[simp] theorem State.withCur_cur (s : State) (c : Strip) : (s.withCur c).cur = c := rfl
@[simp] theorem State.withCur_prev (s : State) (c : Strip) : (s.withCur c).prev = s.prev := rfl
@[simp] theorem State.withCur_mode (s : State) (c : Strip) : (s.withCur c).mode = s.mode := rfl
@[simp] theorem State.withCur_halt (s : State) (c : Strip) : (s.withCur c).halt = s.halt := rfl
@[simp] theorem State.withCur_coeArmed (s : State) (c : Strip) : (s.withCur c).coeArmed = s.coeArmed := rfl
@[simp] theorem State.withCur_clk (s : State) (c : Strip) : (s.withCur c).clk = s.clk := rfl
@[simp] theorem State.withCur_dat (s : State) (c : Strip) : (s.withCur c).dat = s.dat := rfl
@[simp] theorem State.withCur_trace (s : State) (c : Strip) : (s.withCur c).trace = s.trace := rfl
@[simp] theorem State.withCur_inputs (s : State) (c : Strip) : (s.withCur c).inputs = s.inputs := rfl
@[simp] theorem State.withCur_failing (s : State) (c : Strip) : (s.withCur c).failing = s.failing := rfl
@[simp] theorem State.withCur_draws (s : State) (c : Strip) : (s.withCur c).draws = s.draws := rfl

@[simp] theorem State.withPrev_cur (s : State) (p : Strip) : (s.withPrev p).cur = s.cur := rfl
@[simp] theorem State.withPrev_prev (s : State) (p : Strip) : (s.withPrev p).prev = p := rfl
@[simp] theorem State.withPrev_mode (s : State) (p : Strip) : (s.withPrev p).mode = s.mode := rfl
@[simp] theorem State.withPrev_halt (s : State) (p : Strip) : (s.withPrev p).halt = s.halt := rfl
@[simp] theorem State.withPrev_coeArmed (s : State) (p : Strip) : (s.withPrev p).coeArmed = s.coeArmed := rfl
@[simp] theorem State.withPrev_clk (s : State) (p : Strip) : (s.withPrev p).clk = s.clk := rfl
@[simp] theorem State.withPrev_dat (s : State) (p : Strip) : (s.withPrev p).dat = s.dat := rfl
@[simp] theorem State.withPrev_trace (s : State) (p : Strip) : (s.withPrev p).trace = s.trace := rfl
@[simp] theorem State.withPrev_inputs (s : State) (p : Strip) : (s.withPrev p).inputs = s.inputs := rfl
@[simp] theorem State.withPrev_failing (s : State) (p : Strip) : (s.withPrev p).failing = s.failing := rfl
@[simp] theorem State.withPrev_draws (s : State) (p : Strip) : (s.withPrev p).draws = s.draws := rfl

@[simp] theorem State.withMode_cur (s : State) (m : Mode) : (s.withMode m).cur = s.cur := rfl
@[simp] theorem State.withMode_prev (s : State) (m : Mode) : (s.withMode m).prev = s.prev := rfl
@[simp] theorem State.withMode_mode (s : State) (m : Mode) : (s.withMode m).mode = m := rfl
@[simp] theorem State.withMode_halt (s : State) (m : Mode) : (s.withMode m).halt = s.halt := rfl
@[simp] theorem State.withMode_coeArmed (s : State) (m : Mode) : (s.withMode m).coeArmed = s.coeArmed := rfl
@[simp] theorem State.withMode_clk (s : State) (m : Mode) : (s.withMode m).clk = s.clk := rfl
@[simp] theorem State.withMode_dat (s : State) (m : Mode) : (s.withMode m).dat = s.dat := rfl
@[simp] theorem State.withMode_trace (s : State) (m : Mode) : (s.withMode m).trace = s.trace := rfl
@[simp] theorem State.withMode_inputs (s : State) (m : Mode) : (s.withMode m).inputs = s.inputs := rfl
@[simp] theorem State.withMode_failing (s : State) (m : Mode) : (s.withMode m).failing = s.failing := rfl
@[simp] theorem State.withMode_draws (s : State) (m : Mode) : (s.withMode m).draws = s.draws := rfl

@[simp] theorem State.withHalt_cur (s : State) (h : Halt) : (s.withHalt h).cur = s.cur := rfl
@[simp] theorem State.withHalt_prev (s : State) (h : Halt) : (s.withHalt h).prev = s.prev := rfl
@[simp] theorem State.withHalt_mode (s : State) (h : Halt) : (s.withHalt h).mode = s.mode := rfl
@[simp] theorem State.withHalt_halt (s : State) (h : Halt) : (s.withHalt h).halt = h := rfl
@[simp] theorem State.withHalt_coeArmed (s : State) (h : Halt) : (s.withHalt h).coeArmed = s.coeArmed := rfl
@[simp] theorem State.withHalt_clk (s : State) (h : Halt) : (s.withHalt h).clk = s.clk := rfl
@[simp] theorem State.withHalt_dat (s : State) (h : Halt) : (s.withHalt h).dat = s.dat := rfl
@[simp] theorem State.withHalt_trace (s : State) (h : Halt) : (s.withHalt h).trace = s.trace := rfl
@[simp] theorem State.withHalt_inputs (s : State) (h : Halt) : (s.withHalt h).inputs = s.inputs := rfl
@[simp] theorem State.withHalt_failing (s : State) (h : Halt) : (s.withHalt h).failing = s.failing := rfl
@[simp] theorem State.withHalt_draws (s : State) (h : Halt) : (s.withHalt h).draws = s.draws := rfl

@[simp] theorem State.arm_cur (s : State) : s.arm.cur = s.cur := rfl
@[simp] theorem State.arm_prev (s : State) : s.arm.prev = s.prev := rfl
@[simp] theorem State.arm_mode (s : State) : s.arm.mode = s.mode := rfl
@[simp] theorem State.arm_halt (s : State) : s.arm.halt = s.halt := rfl
@[simp] theorem State.arm_coeArmed (s : State) : s.arm.coeArmed = true := rfl
@[simp] theorem State.arm_clk (s : State) : s.arm.clk = s.clk := rfl
@[simp] theorem State.arm_dat (s : State) : s.arm.dat = s.dat := rfl
@[simp] theorem State.arm_trace (s : State) : s.arm.trace = s.trace := rfl
@[simp] theorem State.arm_inputs (s : State) : s.arm.inputs = s.inputs := rfl
@[simp] theorem State.arm_failing (s : State) : s.arm.failing = s.failing := rfl
@[simp] theorem State.arm_draws (s : State) : s.arm.draws = s.draws := rfl

@[simp] theorem State.logEvent_cur (s : State) (e : Event) : (s.logEvent e).cur = s.cur := rfl
@[simp] theorem State.logEvent_prev (s : State) (e : Event) : (s.logEvent e).prev = s.prev := rfl
@[simp] theorem State.logEvent_mode (s : State) (e : Event) : (s.logEvent e).mode = s.mode := rfl
@[simp] theorem State.logEvent_halt (s : State) (e : Event) : (s.logEvent e).halt = s.halt := rfl
@[simp] theorem State.logEvent_coeArmed (s : State) (e : Event) : (s.logEvent e).coeArmed = s.coeArmed := rfl
@[simp] theorem State.logEvent_clk (s : State) (e : Event) : (s.logEvent e).clk = s.clk := rfl
@[simp] theorem State.logEvent_dat (s : State) (e : Event) : (s.logEvent e).dat = s.dat := rfl
@[simp] theorem State.logEvent_trace (s : State) (e : Event) : (s.logEvent e).trace = s.trace ++ [e] := rfl
@[simp] theorem State.logEvent_inputs (s : State) (e : Event) : (s.logEvent e).inputs = s.inputs := rfl
@[simp] theorem State.logEvent_failing (s : State) (e : Event) : (s.logEvent e).failing = s.failing := rfl
@[simp] theorem State.logEvent_draws (s : State) (e : Event) : (s.logEvent e).draws = s.draws := rfl

@[simp] theorem State.withInputs_cur (s : State) (is : List Input) : (s.withInputs is).cur = s.cur := rfl
@[simp] theorem State.withInputs_prev (s : State) (is : List Input) : (s.withInputs is).prev = s.prev := rfl
@[simp] theorem State.withInputs_mode (s : State) (is : List Input) : (s.withInputs is).mode = s.mode := rfl
@[simp] theorem State.withInputs_halt (s : State) (is : List Input) : (s.withInputs is).halt = s.halt := rfl
@[simp] theorem State.withInputs_coeArmed (s : State) (is : List Input) : (s.withInputs is).coeArmed = s.coeArmed := rfl
@[simp] theorem State.withInputs_clk (s : State) (is : List Input) : (s.withInputs is).clk = s.clk := rfl
@[simp] theorem State.withInputs_dat (s : State) (is : List Input) : (s.withInputs is).dat = s.dat := rfl
@[simp] theorem State.withInputs_trace (s : State) (is : List Input) : (s.withInputs is).trace = s.trace := rfl
@[simp] theorem State.withInputs_inputs (s : State) (is : List Input) : (s.withInputs is).inputs = is := rfl
@[simp] theorem State.withInputs_failing (s : State) (is : List Input) : (s.withInputs is).failing = s.failing := rfl
@[simp] theorem State.withInputs_draws (s : State) (is : List Input) : (s.withInputs is).draws = s.draws := rfl

@[simp] theorem State.countDraw_cur (s : State) : s.countDraw.cur = s.cur := rfl
@[simp] theorem State.countDraw_prev (s : State) : s.countDraw.prev = s.prev := rfl
@[simp] theorem State.countDraw_mode (s : State) : s.countDraw.mode = s.mode := rfl
@[simp] theorem State.countDraw_halt (s : State) : s.countDraw.halt = s.halt := rfl
@[simp] theorem State.countDraw_coeArmed (s : State) : s.countDraw.coeArmed = s.coeArmed := rfl
@[simp] theorem State.countDraw_clk (s : State) : s.countDraw.clk = s.clk := rfl
@[simp] theorem State.countDraw_dat (s : State) : s.countDraw.dat = s.dat := rfl
@[simp] theorem State.countDraw_trace (s : State) : s.countDraw.trace = s.trace := rfl
@[simp] theorem State.countDraw_inputs (s : State) : s.countDraw.inputs = s.inputs := rfl
@[simp] theorem State.countDraw_failing (s : State) : s.countDraw.failing = s.failing := rfl
@[simp] theorem State.countDraw_draws (s : State) : s.countDraw.draws = s.draws + 1 := rfl

@[simp] theorem State.withLine_clk_cur (s : State) (x : LineState) : (s.withLine .clk x).cur = s.cur := rfl
@[simp] theorem State.withLine_clk_prev (s : State) (x : LineState) : (s.withLine .clk x).prev = s.prev := rfl
@[simp] theorem State.withLine_clk_mode (s : State) (x : LineState) : (s.withLine .clk x).mode = s.mode := rfl
@[simp] theorem State.withLine_clk_halt (s : State) (x : LineState) : (s.withLine .clk x).halt = s.halt := rfl
@[simp] theorem State.withLine_clk_coeArmed (s : State) (x : LineState) : (s.withLine .clk x).coeArmed = s.coeArmed := rfl
@[simp] theorem State.withLine_clk_clk (s : State) (x : LineState) : (s.withLine .clk x).clk = x := rfl
@[simp] theorem State.withLine_clk_dat (s : State) (x : LineState) : (s.withLine .clk x).dat = s.dat := rfl
@[simp] theorem State.withLine_clk_trace (s : State) (x : LineState) : (s.withLine .clk x).trace = s.trace := rfl
@[simp] theorem State.withLine_clk_inputs (s : State) (x : LineState) : (s.withLine .clk x).inputs = s.inputs := rfl
@[simp] theorem State.withLine_clk_failing (s : State) (x : LineState) : (s.withLine .clk x).failing = s.failing := rfl
@[simp] theorem State.withLine_clk_draws (s : State) (x : LineState) : (s.withLine .clk x).draws = s.draws := rfl

@[simp] theorem State.withLine_dat_cur (s : State) (x : LineState) : (s.withLine .dat x).cur = s.cur := rfl
@[simp] theorem State.withLine_dat_prev (s : State) (x : LineState) : (s.withLine .dat x).prev = s.prev := rfl
@[simp] theorem State.withLine_dat_mode (s : State) (x : LineState) : (s.withLine .dat x).mode = s.mode := rfl
@[simp] theorem State.withLine_dat_halt (s : State) (x : LineState) : (s.withLine .dat x).halt = s.halt := rfl
@[simp] theorem State.withLine_dat_coeArmed (s : State) (x : LineState) : (s.withLine .dat x).coeArmed = s.coeArmed := rfl
@[simp] theorem State.withLine_dat_clk (s : State) (x : LineState) : (s.withLine .dat x).clk = s.clk := rfl
@[simp] theorem State.withLine_dat_dat (s : State) (x : LineState) : (s.withLine .dat x).dat = x := rfl
@[simp] theorem State.withLine_dat_trace (s : State) (x : LineState) : (s.withLine .dat x).trace = s.trace := rfl
@[simp] theorem State.withLine_dat_inputs (s : State) (x : LineState) : (s.withLine .dat x).inputs = s.inputs := rfl
@[simp] theorem State.withLine_dat_failing (s : State) (x : LineState) : (s.withLine .dat x).failing = s.failing := rfl
@[simp] theorem State.withLine_dat_draws (s : State) (x : LineState) : (s.withLine .dat x).draws = s.draws := rfl

@[simp] theorem State.withLine_cur (s : State) (l : Line) (x : LineState) : (s.withLine l x).cur = s.cur := by cases l <;> rfl
@[simp] theorem State.withLine_prev (s : State) (l : Line) (x : LineState) : (s.withLine l x).prev = s.prev := by cases l <;> rfl
@[simp] theorem State.withLine_mode (s : State) (l : Line) (x : LineState) : (s.withLine l x).mode = s.mode := by cases l <;> rfl
@[simp] theorem State.withLine_halt (s : State) (l : Line) (x : LineState) : (s.withLine l x).halt = s.halt := by cases l <;> rfl
@[simp] theorem State.withLine_coeArmed (s : State) (l : Line) (x : LineState) : (s.withLine l x).coeArmed = s.coeArmed := by cases l <;> rfl
@[simp] theorem State.withLine_trace (s : State) (l : Line) (x : LineState) : (s.withLine l x).trace = s.trace := by cases l <;> rfl
@[simp] theorem State.withLine_inputs (s : State) (l : Line) (x : LineState) : (s.withLine l x).inputs = s.inputs := by cases l <;> rfl
@[simp] theorem State.withLine_failing (s : State) (l : Line) (x : LineState) : (s.withLine l x).failing = s.failing := by cases l <;> rfl
@[simp] theorem State.withLine_draws (s : State) (l : Line) (x : LineState) : (s.withLine l x).draws = s.draws := by cases l <;> rfl

@[simp] theorem State.line_clk (s : State) : s.line .clk = s.clk := rfl
@[simp] theorem State.line_dat (s : State) : s.line .dat = s.dat := rfl

@[simp] theorem State.line_withCur (s : State) (c : Strip) (l : Line) : (s.withCur c).line l = s.line l := by cases l <;> rfl
@[simp] theorem State.line_withPrev (s : State) (p : Strip) (l : Line) : (s.withPrev p).line l = s.line l := by cases l <;> rfl
@[simp] theorem State.line_withMode (s : State) (m : Mode) (l : Line) : (s.withMode m).line l = s.line l := by cases l <;> rfl
@[simp] theorem State.line_withHalt (s : State) (h : Halt) (l : Line) : (s.withHalt h).line l = s.line l := by cases l <;> rfl
@[simp] theorem State.line_arm (s : State) (l : Line) : s.arm.line l = s.line l := by cases l <;> rfl
@[simp] theorem State.line_logEvent (s : State) (e : Event) (l : Line) : (s.logEvent e).line l = s.line l := by cases l <;> rfl
@[simp] theorem State.line_withInputs (s : State) (is : List Input) (l : Line) : (s.withInputs is).line l = s.line l := by cases l <;> rfl
@[simp] theorem State.line_countDraw (s : State) (l : Line) : s.countDraw.line l = s.line l := by cases l <;> rfl

/-- Writing one line leaves the other, and reads back what was written. -/
theorem State.line_withLine (s : State) (l l2 : Line) (x : LineState) :
    (s.withLine l x).line l2 = if l = l2 then x else s.line l2 := by cases l <;> cases l2 <;> rfl

@[simp] theorem raiseFault_cur (c : FatalCause) (s : State) : (raiseFault c s).cur = s.cur := rfl
@[simp] theorem raiseFault_prev (c : FatalCause) (s : State) : (raiseFault c s).prev = s.prev := rfl
@[simp] theorem raiseFault_mode (c : FatalCause) (s : State) : (raiseFault c s).mode = s.mode := rfl
@[simp] theorem raiseFault_halt (c : FatalCause) (s : State) : (raiseFault c s).halt = .fatal c := rfl
@[simp] theorem raiseFault_coeArmed (c : FatalCause) (s : State) : (raiseFault c s).coeArmed = s.coeArmed := rfl
@[simp] theorem raiseFault_clk (c : FatalCause) (s : State) : (raiseFault c s).clk = s.clk := rfl
@[simp] theorem raiseFault_dat (c : FatalCause) (s : State) : (raiseFault c s).dat = s.dat := rfl
@[simp] theorem raiseFault_trace (c : FatalCause) (s : State) : (raiseFault c s).trace = s.trace := rfl
@[simp] theorem raiseFault_inputs (c : FatalCause) (s : State) : (raiseFault c s).inputs = s.inputs := rfl
@[simp] theorem raiseFault_failing (c : FatalCause) (s : State) : (raiseFault c s).failing = s.failing := rfl
@[simp] theorem raiseFault_draws (c : FatalCause) (s : State) : (raiseFault c s).draws = s.draws := rfl

@[simp] theorem commit_cur (s : State) : (commit s).cur = s.cur := rfl
@[simp] theorem commit_prev (s : State) : (commit s).prev = s.cur := rfl
@[simp] theorem commit_mode (s : State) : (commit s).mode = s.mode := rfl
@[simp] theorem commit_halt (s : State) : (commit s).halt = s.halt := rfl
@[simp] theorem commit_coeArmed (s : State) : (commit s).coeArmed = s.coeArmed := rfl
@[simp] theorem commit_clk (s : State) : (commit s).clk = s.clk := rfl
@[simp] theorem commit_dat (s : State) : (commit s).dat = s.dat := rfl
@[simp] theorem commit_trace (s : State) : (commit s).trace = s.trace := rfl
@[simp] theorem commit_inputs (s : State) : (commit s).inputs = s.inputs := rfl
@[simp] theorem commit_failing (s : State) : (commit s).failing = s.failing := rfl
@[simp] theorem commit_draws (s : State) : (commit s).draws = s.draws := rfl

@[simp] theorem resetTo_cur (fl : List Nat) (s : State) : (resetTo fl s).cur = State.reset.cur := rfl
@[simp] theorem resetTo_prev (fl : List Nat) (s : State) : (resetTo fl s).prev = State.reset.prev := rfl
@[simp] theorem resetTo_mode (fl : List Nat) (s : State) : (resetTo fl s).mode = State.reset.mode := rfl
@[simp] theorem resetTo_halt (fl : List Nat) (s : State) : (resetTo fl s).halt = State.reset.halt := rfl
@[simp] theorem resetTo_coeArmed (fl : List Nat) (s : State) : (resetTo fl s).coeArmed = State.reset.coeArmed := rfl
@[simp] theorem resetTo_clk (fl : List Nat) (s : State) : (resetTo fl s).clk = State.reset.clk := rfl
@[simp] theorem resetTo_dat (fl : List Nat) (s : State) : (resetTo fl s).dat = State.reset.dat := rfl
@[simp] theorem resetTo_trace (fl : List Nat) (s : State) : (resetTo fl s).trace = State.reset.trace := rfl
@[simp] theorem resetTo_inputs (fl : List Nat) (s : State) : (resetTo fl s).inputs = s.inputs := rfl
@[simp] theorem resetTo_failing (fl : List Nat) (s : State) : (resetTo fl s).failing = fl := rfl
@[simp] theorem resetTo_draws (fl : List Nat) (s : State) : (resetTo fl s).draws = s.draws := rfl

@[simp] theorem State.line_raiseFault (c : FatalCause) (s : State) (l : Line) : (raiseFault c s).line l = s.line l := by cases l <;> rfl
@[simp] theorem State.line_commit (s : State) (l : Line) : (commit s).line l = s.line l := by cases l <;> rfl

/-- A state is its fields: two that agree on each are equal. -/
theorem State.ext_fields {s t : State} (h0 : s.cur = t.cur) (h1 : s.prev = t.prev) (h2 : s.mode = t.mode) (h3 : s.halt = t.halt) (h4 : s.coeArmed = t.coeArmed) (h5 : s.clk = t.clk) (h6 : s.dat = t.dat) (h7 : s.trace = t.trace) (h8 : s.inputs = t.inputs) (h9 : s.failing = t.failing) (h10 : s.draws = t.draws) : s = t := by
  cases s; cases t; simp_all

end Sys2Proof.Machine
end

