-- ==== Sys2Proof/Laws/Registers.lean ====
section
/-! SUPPORT. The pixel registers: what is read after a write, and when `changed` is true. -/

namespace Sys2Proof.Machine

/-- Two strips that agree at every index are equal. -/
theorem Strip.ext_get {a b : Strip} (h : ∀ i, a.get i = b.get i) : a = b := by
  have h0 := h 0; have h1 := h 1; have h2 := h 2; have h3 := h 3
  have h4 := h 4; have h5 := h 5; have h6 := h 6; have h7 := h 7
  cases a; cases b
  simp only [Strip.get] at h0 h1 h2 h3 h4 h5 h6 h7
  simp_all

theorem Strip.get_set (s : Strip) (i j : Fin 8) (p : Pixel) :
    (s.set i p).get j = if i = j then p else s.get j := by
  fin_cases i <;> fin_cases j <;> rfl

@[simp] theorem Strip.get_set_same (s : Strip) (i : Fin 8) (p : Pixel) : (s.set i p).get i = p := by
  simp [Strip.get_set]

theorem Strip.get_set_other (s : Strip) {i j : Fin 8} (h : j ≠ i) (p : Pixel) : (s.set i p).get j = s.get j := by
  simp [Strip.get_set, Ne.symm h]

@[simp] theorem Strip.get_map (s : Strip) (f : Pixel → Pixel) (i : Fin 8) : (s.map f).get i = f (s.get i) := by
  fin_cases i <;> rfl

@[simp] theorem Strip.get_all (p : Pixel) (i : Fin 8) : (Strip.all p).get i = p := by
  fin_cases i <;> rfl

@[simp] theorem Strip.get_setAllColours (s : Strip) (r g b : Byte) (i : Fin 8) :
    (s.setAllColours r g b).get i = (s.get i).withColour r g b := Strip.get_map s _ i

@[simp] theorem Strip.get_setAllBrts (s : Strip) (n : RawBrt) (i : Fin 8) :
    (s.setAllBrts n).get i = (s.get i).withBrt n := Strip.get_map s _ i

theorem Strip.get_setColour (s : Strip) (i j : Fin 8) (r g b : Byte) :
    (s.setColour i r g b).get j = if i = j then (s.get i).withColour r g b else s.get j := Strip.get_set s i j _

theorem Strip.get_setBrt (s : Strip) (i j : Fin 8) (n : RawBrt) :
    (s.setBrt i n).get j = if i = j then (s.get i).withBrt n else s.get j := Strip.get_set s i j _

@[simp] theorem Pixel.withColour_R (p : Pixel) (r g b : Byte) : (p.withColour r g b).R = r := rfl
@[simp] theorem Pixel.withColour_G (p : Pixel) (r g b : Byte) : (p.withColour r g b).G = g := rfl
@[simp] theorem Pixel.withColour_B (p : Pixel) (r g b : Byte) : (p.withColour r g b).B = b := rfl
@[simp] theorem Pixel.withColour_BRT (p : Pixel) (r g b : Byte) : (p.withColour r g b).BRT = p.BRT := rfl
@[simp] theorem Pixel.withBrt_R (p : Pixel) (n : RawBrt) : (p.withBrt n).R = p.R := rfl
@[simp] theorem Pixel.withBrt_G (p : Pixel) (n : RawBrt) : (p.withBrt n).G = p.G := rfl
@[simp] theorem Pixel.withBrt_B (p : Pixel) (n : RawBrt) : (p.withBrt n).B = p.B := rfl
@[simp] theorem Pixel.withBrt_BRT (p : Pixel) (n : RawBrt) : (p.withBrt n).BRT = n := rfl

theorem Pixel.differs_iff (p q : Pixel) : p.differs q = true ↔ p ≠ q := by
  cases p; cases q
  simp [Pixel.differs, imp_iff_not_or, or_assoc]

/-- The scan of R64 finds a difference exactly when the strips differ. -/
theorem changedStrip_iff (c p : Strip) : changedStrip c p = true ↔ c ≠ p := by
  cases c; cases p
  simp [changedStrip, Strip.toList, Pixel.differs_iff, imp_iff_not_or]

theorem State.changed_iff (s : State) : s.changed = true ↔ s.cur ≠ s.prev := changedStrip_iff _ _

theorem State.changed_eq_false_iff (s : State) : s.changed = false ↔ s.cur = s.prev := by
  rw [← Bool.not_eq_true, State.changed_iff, not_not]

@[simp] theorem commit_changed (s : State) : (commit s).changed = false := by
  simp [State.changed_eq_false_iff]

end Sys2Proof.Machine
end

