-- ==== Sys2Proof/Laws/Attempts.lean ====
section
/-! SUPPORT. What the shared operations of Machine/Ops.lean can do: the gate, the operand checks, sequencing,
the command port. -/

namespace Sys2Proof.Machine

@[simp] theorem Attempt.andThen_done (s : State) (k : State → Attempt) : (Attempt.done s).andThen k = k s := rfl
@[simp] theorem Attempt.andThen_raised (s : State) (k : State → Attempt) :
    (Attempt.raised s).andThen k = .raised s := rfl
@[simp] theorem Attempt.andThen_refused (r : Refusal) (k : State → Attempt) :
    (Attempt.refused r).andThen k = .refused r := rfl
@[simp] theorem Attempt.outcome_done (s : State) : (Attempt.done s).outcome = .next s := rfl
@[simp] theorem Attempt.outcome_raised (s : State) : (Attempt.raised s).outcome = .next s := rfl
@[simp] theorem Attempt.outcome_refused (r : Refusal) : (Attempt.refused r).outcome = .refused r := rfl

/-- An attempt leaves a next state by completing or by faulting. -/
theorem Attempt.outcome_next_iff {a : Attempt} {t : State} : a.outcome = .next t ↔ a = .done t ∨ a = .raised t := by
  cases a <;> simp [Attempt.outcome]

theorem Attempt.andThen_done_iff {a : Attempt} {k : State → Attempt} {t : State} :
    a.andThen k = .done t ↔ ∃ u, a = .done u ∧ k u = .done t := by cases a <;> simp

theorem Attempt.andThen_raised_iff {a : Attempt} {k : State → Attempt} {t : State} :
    a.andThen k = .raised t ↔ a = .raised t ∨ ∃ u, a = .done u ∧ k u = .raised t := by cases a <;> simp

/-- Sequencing is associative. -/
theorem Attempt.andThen_assoc (a : Attempt) (k l : State → Attempt) :
    (a.andThen k).andThen l = a.andThen fun s => (k s).andThen l := by cases a <;> rfl

@[simp] theorem Mode.isReady_iff (m : Mode) : m.isReady = true ↔ m = .ready := by cases m <;> simp [Mode.isReady]
@[simp] theorem Mode.isUninitialized_iff (m : Mode) : m.isUninitialized = true ↔ m = .uninitialized := by
  cases m <;> simp [Mode.isUninitialized]
@[simp] theorem Mode.takesClose_iff (m : Mode) : m.takesClose = true ↔ m ≠ .uninitialized := by
  cases m <;> simp [Mode.takesClose]

/-- A running block whose mode takes the command runs its pseudocode. -/
theorem accept_running {takes : Mode → Bool} {s : State} (body : State → Attempt) (hh : s.halt = .running)
    (hm : takes s.mode = true) : accept takes body s = (body s).outcome := by simp [accept, hh, hm]

/-- A running block whose mode does not take the command refuses it. -/
theorem accept_wrong_mode {takes : Mode → Bool} {s : State} (body : State → Attempt) (hh : s.halt = .running)
    (hm : takes s.mode = false) : accept takes body s = .refused (.invalidMode s.mode) := by simp [accept, hh, hm]

/-- A halted block accepts nothing. -/
theorem accept_halted {takes : Mode → Bool} {s : State} (body : State → Attempt) (hh : s.halt ≠ .running) :
    accept takes body s = .next s := by
  unfold accept
  split <;> simp_all

/-- All that the gate can do: if a next state comes out, the block was halted and nothing changed, or it was
running in a mode that takes the command and its pseudocode left that state. -/
theorem accept_next {takes : Mode → Bool} {body : State → Attempt} {s t : State}
    (h : accept takes body s = .next t) :
    (s.halt ≠ .running ∧ t = s) ∨
    (s.halt = .running ∧ takes s.mode = true ∧ (body s = .done t ∨ body s = .raised t)) := by
  by_cases hh : s.halt = .running
  · cases hm : takes s.mode
    · rw [accept_wrong_mode _ hh hm] at h; cases h
    · rw [accept_running _ hh hm] at h
      exact .inr ⟨hh, rfl, Attempt.outcome_next_iff.1 h⟩
  · rw [accept_halted _ hh] at h
    cases h
    exact .inl ⟨hh, rfl⟩

/-- The gate never answers with a step-level fault; no operation can. -/
theorem no_fault (f : Fault) : False := by cases f

theorem pixelIndex?_eq_some {idx : BitVec 4} (h : idx.toNat < 8) : pixelIndex? idx = some ⟨idx.toNat, h⟩ := by
  simp [pixelIndex?, h]

theorem pixelIndex?_eq_none {idx : BitVec 4} (h : 8 ≤ idx.toNat) : pixelIndex? idx = none := by
  simp [pixelIndex?, Nat.not_lt.2 h]

/-- The index check passes the register on for 0 to 7. -/
theorem withIndex_ok {idx : BitVec 4} (h : idx.toNat < 8) (k : Fin 8 → State → Attempt) (s : State) :
    withIndex idx k s = k ⟨idx.toNat, h⟩ s := by simp [withIndex, pixelIndex?_eq_some h]

/-- The index check faults for 8 to 15. -/
theorem withIndex_bad {idx : BitVec 4} (h : 8 ≤ idx.toNat) (k : Fin 8 → State → Attempt) (s : State) :
    withIndex idx k s = .raised (raiseFault (.indexOutOfRange idx) s) := by simp [withIndex, pixelIndex?_eq_none h]

/-- The brightness check passes the converted value on inside the unit interval. -/
theorem withBrightness_ok {v : Binary64} (h : inUnit v = true) (k : RawBrt → State → Attempt) (s : State) :
    withBrightness v k s = k (convert v) s := by simp [withBrightness, h]

/-- The brightness check faults outside the unit interval. -/
theorem withBrightness_bad {v : Binary64} (h : inUnit v = false) (k : RawBrt → State → Attempt) (s : State) :
    withBrightness v k s = .raised (raiseFault (.invalidBrightness v) s) := by simp [withBrightness, h]

@[simp] theorem takeInput_nil {s : State} (h : s.inputs = []) : takeInput s = none := by simp [takeInput, h]

theorem takeInput_cons {s : State} {i : Input} {rest : List Input} (h : s.inputs = i :: rest) :
    takeInput s = some (i, s.withInputs rest) := by simp [takeInput, h]

end Sys2Proof.Machine
end

