-- ==== Sys2Proof/Laws/Driver.lean ====
section
/-! SUPPORT. What a call of the line driver, and a list of calls, can do (43_line_driver.md). -/

namespace Sys2Proof.Machine

/-! ### The driver state after one call -/

theorem applyCall_eq (took : Line → Bool) (e : Event) (s : State) :
    applyCall took e s =
      (s.withLine .clk (if took .clk then s.clk.after .clk e else s.clk)).withLine .dat
        (if took .dat then s.dat.after .dat e else s.dat) := rfl

theorem applyCall_line (took : Line → Bool) (e : Event) (s : State) (l : Line) :
    (applyCall took e s).line l = if took l then (s.line l).after l e else s.line l := by
  cases l <;> simp [applyCall_eq]

@[simp] theorem applyCall_cur (took : Line → Bool) (e : Event) (s : State) : (applyCall took e s).cur = s.cur := rfl
@[simp] theorem applyCall_prev (took : Line → Bool) (e : Event) (s : State) : (applyCall took e s).prev = s.prev := rfl
@[simp] theorem applyCall_mode (took : Line → Bool) (e : Event) (s : State) : (applyCall took e s).mode = s.mode := rfl
@[simp] theorem applyCall_halt (took : Line → Bool) (e : Event) (s : State) : (applyCall took e s).halt = s.halt := rfl
@[simp] theorem applyCall_coeArmed (took : Line → Bool) (e : Event) (s : State) :
    (applyCall took e s).coeArmed = s.coeArmed := rfl
@[simp] theorem applyCall_trace (took : Line → Bool) (e : Event) (s : State) :
    (applyCall took e s).trace = s.trace := rfl
@[simp] theorem applyCall_inputs (took : Line → Bool) (e : Event) (s : State) :
    (applyCall took e s).inputs = s.inputs := rfl
@[simp] theorem applyCall_failing (took : Line → Bool) (e : Event) (s : State) :
    (applyCall took e s).failing = s.failing := rfl
@[simp] theorem applyCall_draws (took : Line → Bool) (e : Event) (s : State) :
    (applyCall took e s).draws = s.draws := rfl

@[simp] theorem callOk_cur (e : Event) (s : State) : (callOk e s).cur = s.cur := rfl
@[simp] theorem callOk_prev (e : Event) (s : State) : (callOk e s).prev = s.prev := rfl
@[simp] theorem callOk_mode (e : Event) (s : State) : (callOk e s).mode = s.mode := rfl
@[simp] theorem callOk_halt (e : Event) (s : State) : (callOk e s).halt = s.halt := rfl
@[simp] theorem callOk_coeArmed (e : Event) (s : State) : (callOk e s).coeArmed = s.coeArmed := rfl
@[simp] theorem callOk_trace (e : Event) (s : State) : (callOk e s).trace = s.trace ++ [e] := rfl
@[simp] theorem callOk_inputs (e : Event) (s : State) : (callOk e s).inputs = s.inputs := rfl
@[simp] theorem callOk_failing (e : Event) (s : State) : (callOk e s).failing = s.failing := rfl
@[simp] theorem callOk_draws (e : Event) (s : State) : (callOk e s).draws = s.draws := rfl
@[simp] theorem callOk_line (e : Event) (s : State) (l : Line) : (callOk e s).line l = (s.line l).after l e := by
  simp [callOk, applyCall_line]

@[simp] theorem callOk_clk (e : Event) (s : State) : (callOk e s).clk = s.clk.after .clk e := callOk_line e s .clk
@[simp] theorem callOk_dat (e : Event) (s : State) : (callOk e s).dat = s.dat.after .dat e := callOk_line e s .dat

@[simp] theorem callFailed_cur (e : Event) (s : State) : (callFailed e s).cur = s.cur := rfl
@[simp] theorem callFailed_prev (e : Event) (s : State) : (callFailed e s).prev = s.prev := rfl
@[simp] theorem callFailed_mode (e : Event) (s : State) : (callFailed e s).mode = s.mode := rfl
@[simp] theorem callFailed_halt (e : Event) (s : State) :
    (callFailed e s).halt = .fatal (.ioFailure s.trace.length) := rfl
@[simp] theorem callFailed_coeArmed (e : Event) (s : State) : (callFailed e s).coeArmed = s.coeArmed := rfl
@[simp] theorem callFailed_trace (e : Event) (s : State) : (callFailed e s).trace = s.trace ++ [e] := rfl
@[simp] theorem callFailed_inputs (e : Event) (s : State) : (callFailed e s).inputs = s.inputs := rfl
@[simp] theorem callFailed_failing (e : Event) (s : State) : (callFailed e s).failing = s.failing := rfl
@[simp] theorem callFailed_draws (e : Event) (s : State) : (callFailed e s).draws = s.draws + 1 := rfl

/-- A failed call leaves each line as it was or as an ok call would have left it (R99). -/
theorem callFailed_line (e : Event) (s : State) (l : Line) :
    (callFailed e s).line l = s.line l ∨ (callFailed e s).line l = (s.line l).after l e := by
  have h : (callFailed e s).line l = (applyCall (Config.failedCallTakesEffect s.draws) e s).line l := by
    cases l <;> rfl
  rw [h, applyCall_line]
  split
  · exact .inr rfl
  · exact .inl rfl

/-! ### One call -/

/-- All that a call can do. -/
theorem issueCall_cases (e : Event) (s : State) :
    (∃ l, uncovered e s = some l ∧ issueCall e s = .refused (.lineNotConfigured l)) ∨
    (uncovered e s = none ∧ s.trace.length ∈ s.failing ∧ issueCall e s = .raised (callFailed e s)) ∨
    (uncovered e s = none ∧ s.trace.length ∉ s.failing ∧ issueCall e s = .done (callOk e s)) := by
  unfold issueCall
  cases h : uncovered e s with
  | some l => exact .inl ⟨l, rfl, rfl⟩
  | none =>
    by_cases hf : s.trace.length ∈ s.failing
    · exact .inr (.inl ⟨rfl, hf, by simp [hf]⟩)
    · exact .inr (.inr ⟨rfl, hf, by simp [hf]⟩)

theorem issueCall_done {e : Event} {s t : State} (h : issueCall e s = .done t) :
    uncovered e s = none ∧ s.trace.length ∉ s.failing ∧ t = callOk e s := by
  rcases issueCall_cases e s with ⟨l, -, h'⟩ | ⟨-, -, h'⟩ | ⟨hu, hf, h'⟩ <;> rw [h'] at h <;> cases h
  exact ⟨hu, hf, rfl⟩

theorem issueCall_raised {e : Event} {s t : State} (h : issueCall e s = .raised t) :
    uncovered e s = none ∧ s.trace.length ∈ s.failing ∧ t = callFailed e s := by
  rcases issueCall_cases e s with ⟨l, -, h'⟩ | ⟨hu, hf, h'⟩ | ⟨-, -, h'⟩ <;> rw [h'] at h <;> cases h
  exact ⟨hu, hf, rfl⟩

/-! ### Many calls -/

/-- What ok calls leave on a line, one after the other. -/
@[irreducible] def LineState.afterAll (l : Line) (es : List Event) (x : LineState) : LineState :=
  es.foldl (fun x e => x.after l e) x

@[simp] theorem LineState.afterAll_nil (l : Line) (x : LineState) : x.afterAll l [] = x := by
  unfold LineState.afterAll; rfl

@[simp] theorem LineState.afterAll_cons (l : Line) (e : Event) (es : List Event) (x : LineState) :
    x.afterAll l (e :: es) = (x.after l e).afterAll l es := by
  unfold LineState.afterAll; rfl

/-- The state after calls that were all ok: the events logged, their effects on the lines, nothing else. -/
def callsOk (es : List Event) (s : State) : State :=
  { s with clk := s.clk.afterAll .clk es, dat := s.dat.afterAll .dat es, trace := s.trace ++ es }

@[simp] theorem callsOk_nil (s : State) : callsOk [] s = s := by simp [callsOk]

@[simp] theorem callsOk_cons (e : Event) (es : List Event) (s : State) :
    callsOk (e :: es) s = callsOk es (callOk e s) := by
  simp [callsOk, callOk, applyCall, State.logEvent, State.withLine]

theorem callsOk_append (as bs : List Event) (s : State) : callsOk (as ++ bs) s = callsOk bs (callsOk as s) := by
  induction as generalizing s with
  | nil => rw [callsOk_nil]; rfl
  | cons a as ih => rw [List.cons_append, callsOk_cons, ih, callsOk_cons]

@[simp] theorem callsOk_cur (es : List Event) (s : State) : (callsOk es s).cur = s.cur := rfl
@[simp] theorem callsOk_prev (es : List Event) (s : State) : (callsOk es s).prev = s.prev := rfl
@[simp] theorem callsOk_mode (es : List Event) (s : State) : (callsOk es s).mode = s.mode := rfl
@[simp] theorem callsOk_halt (es : List Event) (s : State) : (callsOk es s).halt = s.halt := rfl
@[simp] theorem callsOk_coeArmed (es : List Event) (s : State) : (callsOk es s).coeArmed = s.coeArmed := rfl
@[simp] theorem callsOk_trace (es : List Event) (s : State) : (callsOk es s).trace = s.trace ++ es := rfl
@[simp] theorem callsOk_inputs (es : List Event) (s : State) : (callsOk es s).inputs = s.inputs := rfl
@[simp] theorem callsOk_failing (es : List Event) (s : State) : (callsOk es s).failing = s.failing := rfl
@[simp] theorem callsOk_draws (es : List Event) (s : State) : (callsOk es s).draws = s.draws := rfl
@[simp] theorem callsOk_line (es : List Event) (s : State) (l : Line) :
    (callsOk es s).line l = (s.line l).afterAll l es := by cases l <;> rfl

@[simp] theorem issueCalls_nil (s : State) : issueCalls [] s = .done s := rfl

theorem issueCalls_cons (e : Event) (es : List Event) (s : State) :
    issueCalls (e :: es) s = (issueCall e s).andThen (issueCalls es) := rfl

/-- Calls in two groups are the calls one after the other. -/
theorem issueCalls_append (as bs : List Event) (s : State) :
    issueCalls (as ++ bs) s = (issueCalls as s).andThen (issueCalls bs) := by
  induction as generalizing s with
  | nil => rfl
  | cons a as ih =>
    rw [List.cons_append, issueCalls_cons, issueCalls_cons, Attempt.andThen_assoc]
    cases issueCall a s <;> simp [ih]

/-- Calls that run to their end were all ok. -/
theorem issueCalls_done {es : List Event} {s t : State} (h : issueCalls es s = .done t) :
    t = callsOk es s ∧ ∀ k, k < es.length → s.trace.length + k ∉ s.failing := by
  induction es generalizing s with
  | nil => cases h; exact ⟨(callsOk_nil _).symm, by simp⟩
  | cons e es ih =>
    obtain ⟨u, hu, hk⟩ := Attempt.andThen_done_iff.1 (issueCalls_cons e es s ▸ h)
    obtain ⟨-, hf, rfl⟩ := issueCall_done hu
    obtain ⟨rfl, hrest⟩ := ih hk
    refine ⟨(callsOk_cons _ _ _).symm, fun k hk => ?_⟩
    cases k with
    | zero => simpa using hf
    | succ k =>
      have h1 := hrest k (by simpa using hk)
      have h2 : (s.trace ++ [e]).length + k = s.trace.length + (k + 1) := by simp; omega
      rwa [callOk_trace, callOk_failing, h2] at h1

/-- Calls that raise a fault: the calls before the failed one were ok, and none comes after it. -/
theorem issueCalls_raised {es : List Event} {s t : State} (h : issueCalls es s = .raised t) :
    ∃ before e after, es = before ++ e :: after ∧ s.trace.length + before.length ∈ s.failing ∧
      (∀ k, k < before.length → s.trace.length + k ∉ s.failing) ∧ t = callFailed e (callsOk before s) := by
  induction es generalizing s with
  | nil => cases h
  | cons e es ih =>
    rcases Attempt.andThen_raised_iff.1 (issueCalls_cons e es s ▸ h) with hr | ⟨u, hu, hk⟩
    · obtain ⟨-, hf, rfl⟩ := issueCall_raised hr
      exact ⟨[], e, es, rfl, by simpa using hf, by simp, by rw [callsOk_nil]⟩
    · obtain ⟨-, hf, rfl⟩ := issueCall_done hu
      obtain ⟨before, e', after, rfl, hin, hok, rfl⟩ := ih hk
      have hlen : ∀ k, (s.trace ++ [e]).length + k = s.trace.length + (k + 1) := by intro k; simp; omega
      refine ⟨e :: before, e', after, rfl, ?_, ?_, by rw [callsOk_cons]⟩
      · rw [callOk_trace, callOk_failing, hlen] at hin; exact hin
      · intro k hk
        cases k with
        | zero => simpa using hf
        | succ k =>
          have h1 := hok k (by simpa using hk)
          rwa [callOk_trace, callOk_failing, hlen] at h1

@[simp] theorem callsOk_clk (es : List Event) (s : State) : (callsOk es s).clk = s.clk.afterAll .clk es := rfl
@[simp] theorem callsOk_dat (es : List Event) (s : State) : (callsOk es s).dat = s.dat.afterAll .dat es := rfl

/-- Writes leave a line's `configured` flag alone. -/
theorem LineState.afterAll_configured {es : List Event} (h : ∀ e ∈ es, ∃ l b, e = .wr l b) (l : Line) (x : LineState) :
    (x.afterAll l es).configured = x.configured := by
  induction es generalizing x with
  | nil => rw [afterAll_nil]
  | cons e es ih =>
    obtain ⟨l', b, rfl⟩ := h e (by simp)
    rw [afterAll_cons, ih (fun e he => h e (by simp [he]))]
    simp only [LineState.after]
    split <;> rfl

theorem callsOk_configured {es : List Event} (h : ∀ e ∈ es, ∃ l b, e = .wr l b) (s : State) (l : Line) :
    ((callsOk es s).line l).configured = (s.line l).configured := by
  rw [callsOk_line, LineState.afterAll_configured h]

/-- Writes to configured lines, none of which fails, run to their end. -/
theorem issueCalls_writes_ok {es : List Event} (h : ∀ e ∈ es, ∃ l b, e = .wr l b) {s : State}
    (hc : ∀ l, (s.line l).configured = true) (hf : ∀ k, k < es.length → s.trace.length + k ∉ s.failing) :
    issueCalls es s = .done (callsOk es s) := by
  induction es generalizing s with
  | nil => rw [callsOk_nil]; rfl
  | cons e es ih =>
    obtain ⟨l', b, rfl⟩ := h e (by simp)
    have h0 : s.trace.length ∉ s.failing := by simpa using hf 0 (by simp)
    have hu : uncovered (.wr l' b) s = none := by simp [uncovered, hc l']
    have hd : issueCall (.wr l' b) s = .done (callOk (.wr l' b) s) := by simp [issueCall, hu, h0]
    rw [issueCalls_cons, hd, Attempt.andThen_done, callsOk_cons]
    apply ih (fun e he => h e (by simp [he]))
    · intro l
      have := LineState.afterAll_configured (es := [.wr l' b]) (fun e he => ⟨l', b, by simpa using he⟩) l (s.line l)
      rw [LineState.afterAll_cons, LineState.afterAll_nil] at this
      rw [callOk_line, this, hc l]
    · intro k hk
      have h1 := hf (k + 1) (by simpa using hk)
      have h2 : (s.trace ++ [Event.wr l' b]).length + k = s.trace.length + (k + 1) := by simp; omega
      rwa [callOk_trace, callOk_failing, h2]

/-- Writes to configured lines of which number `k` is the first to fail are cut there. -/
theorem issueCalls_writes_cut {es : List Event} (h : ∀ e ∈ es, ∃ l b, e = .wr l b) {s : State}
    (hc : ∀ l, (s.line l).configured = true) {k : Nat} (hk : k < es.length)
    (hok : ∀ j, j < k → s.trace.length + j ∉ s.failing) (hf : s.trace.length + k ∈ s.failing) :
    issueCalls es s = .raised (callFailed es[k] (callsOk (es.take k) s)) := by
  have hsplit : es = es.take k ++ es[k] :: es.drop (k + 1) := by simp
  have hlen : (es.take k).length = k := by simp; omega
  conv => lhs; rw [hsplit, issueCalls_append]
  rw [issueCalls_writes_ok (fun e he => h e (List.mem_of_mem_take he)) hc (by rw [hlen]; exact hok),
    Attempt.andThen_done, issueCalls_cons]
  obtain ⟨l, b, hlb⟩ := h es[k] (List.getElem_mem hk)
  have hu : uncovered es[k] (callsOk (es.take k) s) = none := by
    rw [hlb]
    simp only [uncovered, callsOk_configured (fun e he => h e (List.mem_of_mem_take he)), hc l, if_true]
  have hin : (callsOk (es.take k) s).trace.length ∈ (callsOk (es.take k) s).failing := by
    rw [callsOk_trace, callsOk_failing, List.length_append, hlen]; exact hf
  have hd : issueCall es[k] (callsOk (es.take k) s) = .raised (callFailed es[k] (callsOk (es.take k) s)) := by
    simp only [issueCall, hu, List.contains_iff_mem.2 hin, if_true]
  rw [hd, Attempt.andThen_raised]

/-- Calls are refused for one reason only: a write to a line that is not configured. -/
theorem issueCalls_refused {es : List Event} {s : State} {r : Refusal} (h : issueCalls es s = .refused r) :
    ∃ l, r = .lineNotConfigured l := by
  induction es generalizing s with
  | nil => cases h
  | cons e es ih =>
    rw [issueCalls_cons] at h
    rcases issueCall_cases e s with ⟨l, -, h'⟩ | ⟨-, -, h'⟩ | ⟨-, -, h'⟩ <;> rw [h'] at h
    · cases h; exact ⟨l, rfl⟩
    · cases h
    · exact ih h

end Sys2Proof.Machine
end

