-- ==== Sys2Proof/Laws/Encoder.lean ====
section
/-! SUPPORT. The pieces of a frame (41_frame_encoder.md): every event is a line write, how long each piece is,
and how the sampled bit stream goes through a piece. -/

namespace Sys2Proof.Machine

@[simp] theorem pulses_zero : pulses 0 = [] := rfl
@[simp] theorem pulses_succ (n : Nat) : pulses (n + 1) = pulse ++ pulses n := rfl
@[simp] theorem sendBits_nil : sendBits [] = [] := rfl
@[simp] theorem sendBits_cons (b : Bool) (bs : List Bool) : sendBits (b :: bs) = sendBit b ++ sendBits bs := rfl
@[simp] theorem sendWords_nil : sendWords [] = [] := rfl
@[simp] theorem sendWords_cons (p : Pixel) (ps : List Pixel) : sendWords (p :: ps) = sendWord p ++ sendWords ps := rfl

theorem sendBits_append (as bs : List Bool) : sendBits (as ++ bs) = sendBits as ++ sendBits bs := by
  induction as <;> simp_all

/-- Every event is a line write. -/
def AllWrites (es : List Event) : Prop := ∀ e ∈ es, ∃ l b, e = .wr l b

theorem AllWrites.nil : AllWrites [] := by simp [AllWrites]

theorem AllWrites.append {as bs : List Event} (ha : AllWrites as) (hb : AllWrites bs) : AllWrites (as ++ bs) := by
  intro e he
  rcases List.mem_append.1 he with h | h
  · exact ha e h
  · exact hb e h

theorem AllWrites.cons (l : Line) (b : Bool) {es : List Event} (h : AllWrites es) : AllWrites (.wr l b :: es) := by
  intro e he
  rcases List.mem_cons.1 he with rfl | he
  · exact ⟨l, b, rfl⟩
  · exact h e he

theorem pulse_writes : AllWrites pulse := .cons _ _ (.cons _ _ .nil)

theorem pulses_writes (n : Nat) : AllWrites (pulses n) := by
  induction n with
  | zero => exact .nil
  | succ n ih => exact pulse_writes.append ih

theorem sendBits_writes (bs : List Bool) : AllWrites (sendBits bs) := by
  induction bs with
  | nil => exact .nil
  | cons b bs ih => exact (AllWrites.cons _ _ pulse_writes).append ih

theorem sendWord_writes (p : Pixel) : AllWrites (sendWord p) :=
  (((sendBits_writes _).append (sendBits_writes _)).append (sendBits_writes _)).append (sendBits_writes _)

theorem sendWords_writes (ps : List Pixel) : AllWrites (sendWords ps) := by
  induction ps with
  | nil => exact .nil
  | cons p ps ih => exact (sendWord_writes p).append ih

/-- A frame consists of line writes only (R79). -/
theorem frame_writes (c : Strip) : AllWrites (frame c) :=
  ((AllWrites.cons _ _ (pulses_writes _)).append (sendWords_writes _)).append (.cons _ _ (pulses_writes _))

@[simp] theorem pulses_length (n : Nat) : (pulses n).length = 2 * n := by
  induction n with
  | zero => rfl
  | succ n ih => simp [pulse, ih]; omega

@[simp] theorem sendBits_length (bs : List Bool) : (sendBits bs).length = 3 * bs.length := by
  induction bs with
  | nil => rfl
  | cons b bs ih => simp [sendBit, pulse, ih]; omega

@[simp] theorem byteBits_length (x : Byte) : (byteBits x).length = 8 := rfl

/-- Sampling goes through two pieces one after the other, the data level carried over. -/
theorem sampleFrom_append (level : Option Bool) (as bs : List Event) :
    sampleFrom level (as ++ bs) = sampleFrom level as ++ sampleFrom (levelAfter .dat level as) bs := by
  induction as generalizing level with
  | nil => rfl
  | cons e as ih =>
    cases e with
    | wr l b => cases l <;> cases b <;> simp [sampleFrom, levelAfter, ih]
    | cfg l => simp [sampleFrom, levelAfter, ih]
    | rel => simp [sampleFrom, levelAfter, ih]

theorem levelAfter_append (l : Line) (start : Option Bool) (as bs : List Event) :
    levelAfter l start (as ++ bs) = levelAfter l (levelAfter l start as) bs := by
  induction as generalizing start with
  | nil => rfl
  | cons e as ih => cases e <;> simp [levelAfter, ih]

/-- The driver's level of a line after ok calls is the last value they write to it (R24, R96). -/
theorem LineState.afterAll_level (l : Line) (es : List Event) (x : LineState) :
    (x.afterAll l es).level = levelAfter l x.level es := by
  induction es generalizing x with
  | nil => rw [afterAll_nil]; rfl
  | cons e es ih =>
    rw [afterAll_cons, ih]
    cases e with
    | cfg l' => by_cases h : l' = l <;> simp [levelAfter, LineState.after, h]
    | wr l' b => by_cases h : l' = l <;> simp [levelAfter, LineState.after, h]
    | rel => simp [levelAfter, LineState.after]

theorem callsOk_level (es : List Event) (s : State) (l : Line) :
    ((callsOk es s).line l).level = levelAfter l (s.line l).level es := by
  rw [callsOk_line, LineState.afterAll_level]

end Sys2Proof.Machine
end

