-- ==== Sys2Proof/Laws/Bodies.lean ====
section
/-! SUPPORT. The arms of `exec` by name, and what the bodies of SHOW and CLOSE can do (42_controller.md R86,
R87). -/

namespace Sys2Proof.Machine

theorem exec_setup (s : State) : exec .setup s = execSetup s := rfl
theorem exec_setPixel (idx : BitVec 4) (r g b : Byte) (s : State) :
    exec (.setPixel idx r g b) s = execSetPixel idx r g b s := rfl
theorem exec_setAll (r g b : Byte) (s : State) : exec (.setAll r g b) s = execSetAll r g b s := rfl
theorem exec_setBrt (v : Binary64) (s : State) : exec (.setBrt v) s = execSetBrt v s := rfl
theorem exec_setPixBrt (idx : BitVec 4) (v : Binary64) (s : State) :
    exec (.setPixBrt idx v) s = execSetPixBrt idx v s := rfl
theorem exec_clear (s : State) : exec .clear s = execClear s := rfl
theorem exec_showCmd (s : State) : exec .showCmd s = execShow s := rfl
theorem exec_close (s : State) : exec .close s = execClose s := rfl
theorem exec_setCoe (en : Bool) (s : State) : exec (.setCoe en) s = execSetCoe en s := rfl

@[simp] theorem clearColours_cur (s : State) : (clearColours s).cur = s.cur.setAllColours 0 0 0 := rfl
@[simp] theorem clearColours_prev (s : State) : (clearColours s).prev = s.prev := rfl
@[simp] theorem clearColours_mode (s : State) : (clearColours s).mode = s.mode := rfl
@[simp] theorem clearColours_halt (s : State) : (clearColours s).halt = s.halt := rfl
@[simp] theorem clearColours_coeArmed (s : State) : (clearColours s).coeArmed = s.coeArmed := rfl
@[simp] theorem clearColours_trace (s : State) : (clearColours s).trace = s.trace := rfl
@[simp] theorem clearColours_inputs (s : State) : (clearColours s).inputs = s.inputs := rfl
@[simp] theorem clearColours_failing (s : State) : (clearColours s).failing = s.failing := rfl
@[simp] theorem clearColours_draws (s : State) : (clearColours s).draws = s.draws := rfl
@[simp] theorem clearColours_line (s : State) (l : Line) : (clearColours s).line l = s.line l := by cases l <;> rfl

/-- SHOW with nothing changed does nothing (R86). -/
theorem showBody_unchanged {s : State} (h : s.cur = s.prev) : showBody s = .done s := by
  simp [showBody, (State.changed_eq_false_iff s).2 h]

/-- SHOW with something changed is a frame and then a commit (R86). -/
theorem showBody_changed {s : State} (h : s.cur ≠ s.prev) :
    showBody s = (issueCalls (frame s.cur) s).andThen fun t => .done (commit t) := by
  simp [showBody, (State.changed_iff s).2 h]

/-- A SHOW that completes sent nothing, or one whole frame of ok calls and then committed. -/
theorem showBody_done {s t : State} (h : showBody s = .done t) :
    (s.cur = s.prev ∧ t = s) ∨
    (s.cur ≠ s.prev ∧ t = commit (callsOk (frame s.cur) s) ∧
      ∀ k, k < (frame s.cur).length → s.trace.length + k ∉ s.failing) := by
  by_cases hc : s.cur = s.prev
  · rw [showBody_unchanged hc] at h; cases h; exact .inl ⟨hc, rfl⟩
  · rw [showBody_changed hc, Attempt.andThen_done_iff] at h
    obtain ⟨u, hu, hk⟩ := h
    obtain ⟨hu, hf⟩ := issueCalls_done hu
    exact .inr ⟨hc, hu ▸ (Attempt.done.inj hk).symm, hf⟩

/-- A SHOW that faults cut its frame at the call that failed and committed nothing (R81). -/
theorem showBody_raised {s t : State} (h : showBody s = .raised t) :
    s.cur ≠ s.prev ∧ ∃ before e after, frame s.cur = before ++ e :: after ∧
      s.trace.length + before.length ∈ s.failing ∧ t = callFailed e (callsOk before s) := by
  by_cases hc : s.cur = s.prev
  · rw [showBody_unchanged hc] at h; cases h
  · rw [showBody_changed hc, Attempt.andThen_raised_iff] at h
    rcases h with h | ⟨u, -, hk⟩
    · obtain ⟨b, e, a, hs, hin, -, ht⟩ := issueCalls_raised h
      exact ⟨hc, b, e, a, hs, hin, ht⟩
    · cases hk

/-- A changed strip, configured lines and no failing call: SHOW completes. -/
theorem showBody_ok {s : State} (hn : s.cur ≠ s.prev) (hc : ∀ l, (s.line l).configured = true)
    (hf : ∀ k, k < (frame s.cur).length → s.trace.length + k ∉ s.failing) :
    showBody s = .done (commit (callsOk (frame s.cur) s)) := by
  rw [showBody_changed hn, issueCalls_writes_ok (frame_writes _) hc hf, Attempt.andThen_done]

/-- A CLOSE that completes: the clear, then a SHOW that completed, then an ok release, then mode Closed. -/
theorem closeBody_done {s t : State} (h : closeBody s = .done t) :
    ∃ u, showBody (clearColours s) = .done u ∧ u.trace.length ∉ u.failing ∧ t = (callOk .rel u).withMode .closed := by
  obtain ⟨w, hw, ht⟩ := Attempt.andThen_done_iff.1 h
  obtain ⟨u, hu, hr⟩ := Attempt.andThen_done_iff.1 hw
  obtain ⟨-, hf, hr⟩ := issueCall_done hr
  exact ⟨u, hu, hf, hr ▸ (Attempt.done.inj ht).symm⟩

/-- A CLOSE that faults: in its frame, or at the release; the mode is as it was (R87). -/
theorem closeBody_raised {s t : State} (h : closeBody s = .raised t) :
    showBody (clearColours s) = .raised t ∨
    ∃ u, showBody (clearColours s) = .done u ∧ u.trace.length ∈ u.failing ∧ t = callFailed .rel u := by
  rcases Attempt.andThen_raised_iff.1 h with h | ⟨w, -, ht⟩
  · rcases Attempt.andThen_raised_iff.1 h with h | ⟨u, hu, hr⟩
    · exact .inl h
    · obtain ⟨-, hf, rfl⟩ := issueCall_raised hr
      exact .inr ⟨u, hu, hf, rfl⟩
  · cases ht

/-- The release is always a call the contract covers. -/
theorem closeBody_of_show {s u : State} (hu : showBody (clearColours s) = .done u)
    (hf : u.trace.length ∉ u.failing) : closeBody s = .done ((callOk .rel u).withMode .closed) := by
  have hr : issueCall .rel u = .done (callOk .rel u) := by simp [issueCall, uncovered, hf]
  simp [closeBody, hu, hr]

end Sys2Proof.Machine
end

