-- ==== Sys2Proof/Machine/Assembler.lean ====
section
/-! DEFINITION. The assembler syntax (30_encoding.md R59): a program's text as the inputs it stands for. The
block never sees the text; it sees the bundles. What R59 leaves open is log entry 14. -/

namespace Sys2Proof.Machine

/-- The binary64 magnitude nearest to `n / d` (ties to even: log entry 14), as its pattern without the sign. The exponent
of `n / d` is found first; below the normal range the unit is that of the subnormals, and a value beyond the
largest finite number is infinity. -/
def nearestMagnitude (n d : Nat) : Nat :=
  if n = 0 then 0
  else
    let e : Int := (n.log2 : Int) - d.log2 - (if d * 2 ^ n.log2 ≤ n * 2 ^ d.log2 then 0 else 1)
    if e ≥ 1024 then 0x7FF0000000000000
    else
      let f := max e (-1022)
      let q := if f ≥ 52 then roundHalfEven n (d * 2 ^ (f - 52).toNat) else roundHalfEven (n * 2 ^ (52 - f).toNat) d
      (f + 1022).toNat * 2 ^ 52 + q

/-- The operand `v` a literal stands for: the binary64 nearest to a decimal real, or the raw pattern (R59). -/
def literalBrightness : Literal → Binary64
  | .dec n => BitVec.ofNat 64 (nearestMagnitude n 1)
  | .hex _ n => BitVec.ofNat 64 n
  | .real negative digits places =>
    BitVec.ofNat 64 ((if negative then 2 ^ 63 else 0) + nearestMagnitude digits (10 ^ places))

/-- The value of an integer literal (0 for a real, which `checkSource` has refused). -/
def literalInt (l : Literal) : Nat := l.int?.getD 0

/-- The command of a source line that `checkSource` accepts (R59). -/
def commandOf (s : SourceLine) : Option Instr :=
  match s.mnemonic, s.operands with
  | "SETUP", [] => some .setup
  | "SETPIXEL", [i, r, g, b] =>
    some (.setPixel (BitVec.ofNat 4 (literalInt i)) (BitVec.ofNat 8 (literalInt r)) (BitVec.ofNat 8 (literalInt g))
      (BitVec.ofNat 8 (literalInt b)))
  | "SETALL", [r, g, b] =>
    some (.setAll (BitVec.ofNat 8 (literalInt r)) (BitVec.ofNat 8 (literalInt g)) (BitVec.ofNat 8 (literalInt b)))
  | "SETBRT", [v] => some (.setBrt (literalBrightness v))
  | "SETPIXBRT", [i, v] => some (.setPixBrt (BitVec.ofNat 4 (literalInt i)) (literalBrightness v))
  | "CLEAR", [] => some .clear
  | "SHOW", [] => some .showCmd
  | "CLOSE", [] => some .close
  | "SETCOE", [e] => some (.setCoe (literalInt e == 1))
  | _, _ => none

/-- Why a line of text gives no input. -/
inductive AsmError where
  /-- An operand is no literal of R59. -/
  | malformedOperand
  /-- The line does not pass `checkSource`. -/
  | badLine (e : SourceError)
deriving DecidableEq, Repr

/-- The digit a character stands for in a base up to 16. -/
def digitOf? (base : Nat) (c : Char) : Option Nat :=
  let d := if '0' ≤ c ∧ c ≤ '9' then c.toNat - '0'.toNat
    else if 'a' ≤ c ∧ c ≤ 'f' then c.toNat - 'a'.toNat + 10
    else if 'A' ≤ c ∧ c ≤ 'F' then c.toNat - 'A'.toNat + 10
    else base
  if d < base then some d else none

/-- Digits read onto `acc`. -/
def readDigits (base : Nat) : Nat → List Char → Option Nat
  | acc, [] => some acc
  | acc, c :: cs => match digitOf? base c with
    | some d => readDigits base (acc * base + d) cs
    | none => none

/-- A decimal literal, its sign read already: an integer, or digits with one point among them. -/
def readDecimal? (negative : Bool) (cs : List Char) : Option Literal :=
  let whole := cs.takeWhile (· ≠ '.')
  if whole.isEmpty then none
  else match cs.dropWhile (· ≠ '.') with
    | [] => (readDigits 10 0 whole).map fun n => if negative then .real true n 0 else .dec n
    | _ :: part =>
      if part.isEmpty then none
      else (readDigits 10 0 (whole ++ part)).map fun n => .real negative n part.length

/-- A literal (R59). -/
def readLiteral? (cs : List Char) : Option Literal :=
  match cs with
  | '0' :: 'x' :: ds => if ds.isEmpty then none else (readDigits 16 0 ds).map (.hex ds.length)
  | '-' :: ds => readDecimal? true ds
  | ds => readDecimal? false ds

/-- A blank. -/
def isBlank (c : Char) : Bool := c == ' ' || c == '\t' || c == '\r'

/-- The text without the blanks at its two ends. -/
def trimBlanks (cs : List Char) : List Char := ((cs.dropWhile isBlank).reverse.dropWhile isBlank).reverse

/-- The pieces of a text between the separators; a text with none is one piece. -/
def splitAt (sep : Char) : List Char → List (List Char)
  | [] => [[]]
  | c :: cs =>
    match splitAt sep cs with
    | [] => [[c]]
    | p :: ps => if c = sep then [] :: p :: ps else (c :: p) :: ps

/-- Every operand read, or none. -/
def readOperands? : List (List Char) → Option (List Literal)
  | [] => some []
  | p :: ps => match readLiteral? (trimBlanks p), readOperands? ps with
    | some l, some ls => some (l :: ls)
    | _, _ => none

/-- One line of text (R59): nothing for a blank line or a comment, the interrupt for `<INT>`, else the
canonical bundle of the command (R54). -/
def assembleLine (line : List Char) : Except AsmError (Option Input) :=
  let text := trimBlanks (line.takeWhile (· ≠ ';'))
  if text.isEmpty then .ok none
  else if text = "<INT>".toList then .ok (some .interrupt)
  else
    let rest := trimBlanks (text.dropWhile fun c => !isBlank c)
    match readOperands? (if rest.isEmpty then [] else splitAt ',' rest) with
    | none => .error .malformedOperand
    | some operands =>
      let s : SourceLine := { mnemonic := String.ofList (text.takeWhile fun c => !isBlank c), operands := operands }
      match checkSource s with
      | .error e => .error (.badLine e)
      | .ok () => .ok ((commandOf s).map fun i => .command (encode i))

/-- Lines assembled one after the other. -/
def assembleLines : List (List Char) → Except AsmError (List Input)
  | [] => .ok []
  | l :: ls =>
    match assembleLine l, assembleLines ls with
    | .ok (some i), .ok is => .ok (i :: is)
    | .ok none, .ok is => .ok is
    | .error e, _ => .error e
    | _, .error e => .error e

/-- A program's text, one command a line (R59, R60). -/
def assemble (program : String) : Except AsmError (List Input) := assembleLines (splitAt '\n' program.toList)

end Sys2Proof.Machine
end

