-- ==== Sys2Proof/Safety.lean ====
section
/-! DEFINITION. The terms claims are stated in: what a number operand is worth, when a block accepts a
command, what a fault-free stretch of a run is, and the invariants of the reachable states (10_state.md R30). -/

namespace Sys2Proof.Machine

/-! ### Numbers -/

/-- The rational number a finite binary64 pattern stands for (R52); `none` for an infinity or a NaN. -/
def binValue? (v : Binary64) : Option ℚ :=
  if binExp v = 2047 then none
  else some ((if binSign v then -1 else 1) * (binSig v : ℚ) * (2 : ℚ) ^ ((max (binExp v) 1 : ℤ) - 1075))

/-- `exact(v) = floor(v × 31)`, the product taken exactly (R63), of an operand in the unit interval. -/
def exactConvert (v : Binary64) : Nat := brtScale * binSig v / 2 ^ binDown v

/-- The 19 operands of R63 (c) on which the rounded product and the exact one fall on different sides of an
integer, each with that integer `k`. -/
def splitOperands : List (Binary64 × Nat) :=
  [(0x3FA0842108421084, 1), (0x3FB0842108421084, 2), (0x3FB8C6318C6318C6, 3), (0x3FC0842108421084, 4),
   (0x3FC4A5294A5294A5, 5), (0x3FC8C6318C6318C6, 6), (0x3FCCE739CE739CE7, 7), (0x3FD0842108421084, 8),
   (0x3FD4A5294A5294A5, 10), (0x3FD8C6318C6318C6, 12), (0x3FDCE739CE739CE7, 14), (0x3FE0842108421084, 16),
   (0x3FE18C6318C6318C, 17), (0x3FE4A5294A5294A5, 20), (0x3FE5AD6B5AD6B5AD, 21), (0x3FE8C6318C6318C6, 24),
   (0x3FE9CE739CE739CE, 25), (0x3FECE739CE739CE7, 28), (0x3FEDEF7BDEF7BDEF, 29)]

/-- `v` is the binary64 nearest to the number of magnitude `x` and the given sign: no finite pattern is nearer (R59).
Of two equally near ones it is the one with the even pattern, and from half a unit above the largest finite number
on it is an infinity: R59 says neither (log entry 14). -/
def NearestBinary64 (negative : Bool) (x : ℚ) (v : Binary64) : Prop :=
  let z := if negative then -x else x
  binSign v = negative ∧
    if x < 2 ^ 1024 - 2 ^ 970 then
      ∃ q, binValue? v = some q ∧ ∀ w y, binValue? w = some y →
        |z - q| ≤ |z - y| ∧ (y ≠ q → |z - y| = |z - q| → v.toNat % 2 = 0)
    else binExp v = 2047 ∧ binFrac v = 0

/-- A number of at most 53 significant bits, in the units of `fl64`. -/
def Fits53 (q : Nat) : Prop := ∃ m k, m < 2 ^ 53 ∧ q = m * 2 ^ k

/-- Distance of two naturals. -/
def distance (a b : Nat) : Nat := (a - b) + (b - a)

/-! ### States -/

/-- The block runs and is in mode `m`. -/
def State.RunningIn (s : State) (m : Mode) : Prop := s.halt = .running ∧ s.mode = m

/-- The next `n` driver calls of the run are ok (R100). -/
def State.NextCallsOk (s : State) (n : Nat) : Prop := ∀ k, k < n → s.trace.length + k ∉ s.failing

/-- Both lines are configured. -/
def State.LinesConfigured (s : State) : Prop := s.clk.configured = true ∧ s.dat.configured = true

/-- The block is halted (R22). -/
def State.Halted (s : State) : Prop := s.halt ≠ .running

/-- The table of R84: the modes that take each command. -/
def modeTakes : Instr → Mode → Bool
  | .setup, .uninitialized => true
  | .setup, .ready => false
  | .setup, .closed => false
  | .close, .uninitialized => false
  | .close, .ready => true
  | .close, .closed => true
  | _, .uninitialized => false
  | _, .ready => true
  | _, .closed => false

/-- The next input is not the reset input. -/
def State.NoResetNext (s : State) : Prop := ∀ failing rest, s.inputs ≠ .reset failing :: rest

/-- Is the event a line write? -/
def Event.isWrite : Event → Bool
  | .cfg _ => false
  | .wr _ _ => true
  | .rel => false

/-- Is the event a configuration call? -/
def Event.isCfg : Event → Bool
  | .cfg _ => true
  | .wr _ _ => false
  | .rel => false

/-- The pixel is black (its brightness may be any). -/
def Pixel.Black (p : Pixel) : Prop := p.R = 0 ∧ p.G = 0 ∧ p.B = 0

/-- Every pixel at its reset value (R27). -/
def Strip.reset : Strip := Strip.all Pixel.reset

/-- The writes among the events `es` end with a whole frame that carried `p`; or there are none and `p` is the
reset value (R19, R30 (b)). -/
def CarriedLast (es : List Event) (p : Strip) : Prop :=
  (p = Strip.reset ∧ ∀ e ∈ es, e.isWrite = false) ∨
  ∃ before after, es = before ++ frame p ++ after ∧ ∀ e ∈ after, e.isWrite = false

/-- What holds in every reachable state: R30 and what the driver's contract adds to it. -/
structure State.Inv (s : State) : Prop where
  /-- R30 (c). -/
  closed_is_flushed_black : s.mode = .closed → s.halt = .running → s.cur = s.prev ∧ ∀ i, (s.cur.get i).Black
  /-- R30 (d). -/
  armed_not_uninitialized : s.coeArmed = true → s.mode ≠ .uninitialized
  /-- R30 (e), the pixel registers. -/
  uninitialized_pixels : s.mode = .uninitialized → s.cur = Strip.reset ∧ s.prev = Strip.reset
  /-- R30 (e), the trace: neither a write nor a release in it. -/
  uninitialized_trace : s.mode = .uninitialized → ∀ e ∈ s.trace, e.isCfg = true
  /-- R30 (e): while running, nothing at all. -/
  uninitialized_running_trace : s.mode = .uninitialized → s.halt = .running → s.trace = []
  /-- A line is configured exactly in mode Ready (R85, R94, R95, R98). -/
  configured_iff_ready : s.halt = .running → ∀ l, (s.line l).configured = s.mode.isReady
  /-- `level[L]` is the value of the last `wr(L, b)` of the trace, *no value* where there is none (R24, R96). -/
  level_is_last_write : s.halt = .running → ∀ l, (s.line l).level = levelAfter l none s.trace
  /-- Between commands the lines have never been written or are both low (R29, R82). -/
  lines_rest_low : s.halt = .running →
    (∀ l, (s.line l).level = none) ∨ (∀ l, (s.line l).level = some false)
  /-- R30 (b), R19, running or halted: `prev` is what the last successful frame carried, or the reset value if
  there was none. Only an `IOFailure` leaves writes after that frame: the start of the frame of `cur`, cut at the
  call that failed (R81). -/
  prev_is_last_frame : ∃ sent cut, s.trace = sent ++ cut ∧ CarriedLast sent s.prev ∧
    (cut ≠ [] → cut <+: frame s.cur ∧ ∃ n, s.halt = .fatal (.ioFailure n))
  /-- While the block runs no call has failed (R99, R112). -/
  no_past_failure : s.halt = .running → ∀ n ∈ s.failing, s.trace.length ≤ n
  /-- An `IOFailure(n)` names the last event of the trace, a call that failed (R104). -/
  io_failure_is_last : ∀ n, s.halt = .fatal (.ioFailure n) → s.trace.length = n + 1 ∧ n ∈ s.failing
  /-- The operand an `InvalidBrightness` records is outside the unit interval (R103). -/
  recorded_brightness_is_bad : ∀ v, s.halt = .fatal (.invalidBrightness v) → inUnit v = false
  /-- The index an `IndexOutOfRange` records is 8 to 15 (R105). -/
  recorded_index_is_bad : ∀ i, s.halt = .fatal (.indexOutOfRange i) → 8 ≤ i.toNat
  /-- After an interrupt-driven exit the mode is Closed and the status is `EXIT_INT` (R111). -/
  exited_is_closed : ∀ n, s.halt = .exited n → s.mode = .closed ∧ n = Config.exitInt.val

/-- A chain of commands, each to its end, with the inputs left alone (R60). -/
def execChain : List Instr → State → Host.Outcome State Fault Refusal
  | [], s => .next s
  | i :: is, s =>
    match exec i s with
    | .next t => execChain is t
    | .fault f => .fault f
    | .refused r => .refused r

/-- The state after reset of a run whose agents will present `inputs` and whose driver fails at `failing`
(log entries 1 and 2). -/
def State.start (inputs : List Input) (failing : List Nat) : State :=
  { State.reset with inputs := inputs, failing := failing }

end Sys2Proof.Machine
end

