-- ==== Sys2Proof/Laws/Invariant.lean ====
section
/-! SUPPORT. The clause of the invariant on `prev` (10_state.md R30 (b)): what it says of a running block, and
how it is kept. -/

namespace Sys2Proof.Machine

/-- Events that are no writes do not change which frame was the last. -/
theorem CarriedLast.append_quiet {es as : List Event} {p : Strip} (h : CarriedLast es p)
    (ha : ∀ e ∈ as, e.isWrite = false) : CarriedLast (es ++ as) p := by
  rcases h with ⟨hp, hq⟩ | ⟨before, after, rfl, hq⟩
  · exact .inl ⟨hp, fun e he => (List.mem_append.1 he).elim (hq e) (ha e)⟩
  · exact .inr ⟨before, after ++ as, by simp, fun e he => (List.mem_append.1 he).elim (hq e) (ha e)⟩

/-- A whole frame is the last one. -/
theorem CarriedLast.of_frame (es : List Event) (p : Strip) : CarriedLast (es ++ frame p) p :=
  .inr ⟨es, [], by simp, by simp⟩

/-- In a running block the last successful frame is the last one of the trace. -/
theorem State.Inv.carried_of_running {s : State} (h : s.Inv) (hr : s.halt = .running) : CarriedLast s.trace s.prev := by
  obtain ⟨sent, cut, hs, hc, hf⟩ := h.prev_is_last_frame
  cases cut with
  | nil => simpa [hs] using hc
  | cons e es => obtain ⟨-, n, hn⟩ := hf (by simp); simp [hr] at hn

/-- Where no frame was cut, the clause on `prev` is that of the whole trace. -/
theorem prev_is_last_frame_of_carried {s : State} (h : CarriedLast s.trace s.prev) :
    ∃ sent cut, s.trace = sent ++ cut ∧ CarriedLast sent s.prev ∧
      (cut ≠ [] → cut <+: frame s.cur ∧ ∃ n, s.halt = .fatal (.ioFailure n)) :=
  ⟨s.trace, [], by simp, h, fun hc => absurd rfl hc⟩

end Sys2Proof.Machine
end

