-- ==== Sys2Proof/Laws/PerInstr.lean ====
section
/-! SUPPORT. The fields of a packed bundle, and the per-instruction family: the opcode and the format of each
command's canonical encoding. -/

namespace Sys2Proof

section
variable (op idx : BitVec 4) (r g b : Byte) (v : Binary64)

/-- Every bit of a packed bundle, field by field (R47). -/
theorem getLsbD_pack (k : Nat) : (pack op idx r g b v).getLsbD k =
    if k < 64 then v.getLsbD k else if k < 72 then b.getLsbD (k - 64) else if k < 80 then g.getLsbD (k - 72)
    else if k < 88 then r.getLsbD (k - 80) else if k < 92 then idx.getLsbD (k - 88) else op.getLsbD (k - 92) := by
  show BitVec.getLsbD (w := 4 + 4 + 8 + 8 + 8 + 64) (op ++ idx ++ r ++ g ++ b ++ v) k = _
  simp only [BitVec.getLsbD_append, Nat.sub_sub]
  grind

@[simp] theorem opField_pack : opField (pack op idx r g b v) = op := by
  apply BitVec.eq_of_getLsbD_eq
  intro i hi
  simp only [opField, BitVec.getLsbD_extractLsb', getLsbD_pack]
  grind

@[simp] theorem idxField_pack : idxField (pack op idx r g b v) = idx := by
  apply BitVec.eq_of_getLsbD_eq
  intro i hi
  simp only [idxField, BitVec.getLsbD_extractLsb', getLsbD_pack]
  grind

@[simp] theorem rField_pack : rField (pack op idx r g b v) = r := by
  apply BitVec.eq_of_getLsbD_eq
  intro i hi
  simp only [rField, BitVec.getLsbD_extractLsb', getLsbD_pack]
  grind

@[simp] theorem gField_pack : gField (pack op idx r g b v) = g := by
  apply BitVec.eq_of_getLsbD_eq
  intro i hi
  simp only [gField, BitVec.getLsbD_extractLsb', getLsbD_pack]
  grind

@[simp] theorem bField_pack : bField (pack op idx r g b v) = b := by
  apply BitVec.eq_of_getLsbD_eq
  intro i hi
  simp only [bField, BitVec.getLsbD_extractLsb', getLsbD_pack]
  grind

@[simp] theorem vField_pack : vField (pack op idx r g b v) = v := by
  apply BitVec.eq_of_getLsbD_eq
  intro i hi
  simp only [vField, BitVec.getLsbD_extractLsb', getLsbD_pack]
  grind

@[simp] theorem enField_pack : enField (pack op idx r g b v) = b.getLsbD 0 := by
  unfold enField; rw [getLsbD_pack]; rfl

end

/-- A bundle is its six fields packed (R47). -/
theorem pack_fields (w : Bundle) : pack (opField w) (idxField w) (rField w) (gField w) (bField w) (vField w) = w := by
  apply BitVec.eq_of_getLsbD_eq
  intro i hi
  simp only [getLsbD_pack, opField, idxField, rField, gField, bField, vField, BitVec.getLsbD_extractLsb']
  grind

/-- Masking a packed bundle masks its fields. -/
theorem pack_and (op idx op2 idx2 : BitVec 4) (r g b r2 g2 b2 : Byte) (v v2 : Binary64) :
    pack op idx r g b v &&& pack op2 idx2 r2 g2 b2 v2 =
      pack (op &&& op2) (idx &&& idx2) (r &&& r2) (g &&& g2) (b &&& b2) (v &&& v2) := by
  apply BitVec.eq_of_getLsbD_eq
  intro i hi
  simp only [BitVec.getLsbD_and, getLsbD_pack]
  grind

end Sys2Proof

namespace Sys2Proof.Laws

/-- The opcode of the encoding of a command selects the format R48 gives the command, and the encoding passes
the canonical-encoding check (R54). -/
def CanonicalEncoding.Statement (i : Instr) : Prop :=
  formatOfOpcode (opField (encode i)).toNat = some i.format ∧ checkBundle (encode i) = .ok ()

/-- The unused bits of each format, packed (R48, R54). -/
theorem CanonicalEncoding.unusedBits (f : Format) :
    ~~~f.usedBits = match f with
      | .n => pack 0 0xF 0xFF 0xFF 0xFF 0xFFFFFFFFFFFFFFFF
      | .pc => pack 0 0 0 0 0 0xFFFFFFFFFFFFFFFF
      | .c => pack 0 0xF 0 0 0 0xFFFFFFFFFFFFFFFF
      | .v => pack 0 0xF 0xFF 0xFF 0xFF 0
      | .pv => pack 0 0 0xFF 0xFF 0xFF 0
      | .e => pack 0 0xF 0xFF 0xFF 0xFE 0xFFFFFFFFFFFFFFFF := by
  cases f <;> rfl

/-- A packed bundle passes the check when its opcode is assigned and its unused fields are 0. -/
theorem CanonicalEncoding.check_of {w : Bundle} {f : Format} (hf : formatOfOpcode (opField w).toNat = some f)
    (hu : w &&& ~~~f.usedBits = 0) : checkBundle w = .ok () := by
  have hf' : formatOfOpcode (w.extractLsb' 92 4).toNat = some f := hf
  unfold checkBundle
  rw [hf']
  simp only [hu, if_true]

theorem CanonicalEncoding.setup : CanonicalEncoding.Statement .setup := ⟨rfl, rfl⟩

theorem CanonicalEncoding.setPixel (idx : BitVec 4) (r g b : Byte) :
    CanonicalEncoding.Statement (.setPixel idx r g b) := by
  have h : formatOfOpcode (opField (encode (.setPixel idx r g b))).toNat = some .pc := by simp [encode, formatOfOpcode]
  exact ⟨h, check_of h (by rw [unusedBits]; simp [encode, pack_and]; rfl)⟩

theorem CanonicalEncoding.setAll (r g b : Byte) : CanonicalEncoding.Statement (.setAll r g b) := by
  have h : formatOfOpcode (opField (encode (.setAll r g b))).toNat = some .c := by simp [encode, formatOfOpcode]
  exact ⟨h, check_of h (by rw [unusedBits]; simp [encode, pack_and]; rfl)⟩

theorem CanonicalEncoding.setBrt (v : Binary64) : CanonicalEncoding.Statement (.setBrt v) := by
  have h : formatOfOpcode (opField (encode (.setBrt v))).toNat = some .v := by simp [encode, formatOfOpcode]
  exact ⟨h, check_of h (by rw [unusedBits]; simp [encode, pack_and]; rfl)⟩

theorem CanonicalEncoding.setPixBrt (idx : BitVec 4) (v : Binary64) :
    CanonicalEncoding.Statement (.setPixBrt idx v) := by
  have h : formatOfOpcode (opField (encode (.setPixBrt idx v))).toNat = some .pv := by simp [encode, formatOfOpcode]
  exact ⟨h, check_of h (by rw [unusedBits]; simp [encode, pack_and]; rfl)⟩

theorem CanonicalEncoding.clear : CanonicalEncoding.Statement .clear := ⟨rfl, rfl⟩

theorem CanonicalEncoding.showCmd : CanonicalEncoding.Statement .showCmd := ⟨rfl, rfl⟩

theorem CanonicalEncoding.close : CanonicalEncoding.Statement .close := ⟨rfl, rfl⟩

theorem CanonicalEncoding.setCoe (en : Bool) : CanonicalEncoding.Statement (.setCoe en) := by
  cases en <;> exact ⟨rfl, rfl⟩

end Sys2Proof.Laws
end

