-- ==== Sys2Proof/Laws/Rounding.lean ====
section
/-! SUPPORT. Rounding: what `roundHalfEven` and `nearestMagnitude` answer (30_encoding.md R59, 40_pixel_store.md
R62), and the fields and the value of a binary64 pattern given as a number (R52). -/

namespace Sys2Proof.Machine

/-! ### Rounding to an integer -/

/-- The rounded quotient is at most half away, and it is even where it is exactly half away. -/
theorem roundHalfEven_half (n : Nat) {d : Nat} (hd : 0 < d) :
    |(n / d : ℚ) - roundHalfEven n d| ≤ 1 / 2 ∧ (|(n / d : ℚ) - roundHalfEven n d| = 1 / 2 → roundHalfEven n d % 2 = 0) := by
  have hx : (n / d : ℚ) = (n / d : ℕ) + ((n % d : ℕ) : ℚ) / d := by
    have : (n : ℚ) = d * (n / d : ℕ) + (n % d : ℕ) := by exact_mod_cast (Nat.div_add_mod n d).symm
    have hd' : (d : ℚ) ≠ 0 := by positivity
    rw [this]; field_simp
  have hd' : (0 : ℚ) < d := by exact_mod_cast hd
  rw [hx]
  set t := n / d
  set r := n % d with hr
  have hrd : r < d := Nat.mod_lt n hd
  unfold roundHalfEven
  simp only [← hr]
  change |(t : ℚ) + r / d - ((if 2 * r < d then t else if d < 2 * r then t + 1 else t + t % 2 : ℕ) : ℚ)| ≤ 1 / 2 ∧ (|(t : ℚ) + r / d - ((if 2 * r < d then t else if d < 2 * r then t + 1 else t + t % 2 : ℕ) : ℚ)| = 1 / 2 → (if 2 * r < d then t else if d < 2 * r then t + 1 else t + t % 2 : ℕ) % 2 = 0)
  have hr0 : (0 : ℚ) ≤ r / d := by positivity
  split
  · rename_i h
    have : (r : ℚ) / d < 1 / 2 := by rw [div_lt_div_iff₀ hd' (by norm_num)]; norm_cast; omega
    rw [add_sub_cancel_left, abs_of_nonneg hr0]
    exact ⟨this.le, fun h => absurd h this.ne⟩
  · split
    · rename_i h
      have h1 : (1 : ℚ) / 2 < r / d := by rw [div_lt_div_iff₀ (by norm_num) hd']; norm_cast; omega
      have h2 : (r : ℚ) / d < 1 := by rw [div_lt_one hd']; exact_mod_cast hrd
      have : (t : ℚ) + r / d - (t + 1 : ℕ) = -(1 - r / d) := by push_cast; ring
      rw [this, abs_neg, abs_of_nonneg (by linarith)]
      exact ⟨by linarith, fun h => by linarith⟩
    · have : 2 * r = d := by omega
      have hq : (r : ℚ) / d = 1 / 2 := by rw [div_eq_div_iff hd'.ne' (by norm_num)]; norm_cast; omega
      rw [hq]
      rcases Nat.mod_two_eq_zero_or_one t with h | h
      · rw [h]; simp only [add_zero]; exact ⟨by norm_num [abs_of_pos], fun _ => h⟩
      · rw [h]; push_cast
        refine ⟨?_, fun _ => by omega⟩
        rw [show (t : ℚ) + 1 / 2 - (t + 1) = -(1/2) by ring, abs_neg]; norm_num

/-- No integer is nearer to the quotient than the rounded one, and where another is as near the rounded one is even. -/
theorem roundHalfEven_nearest (n : Nat) {d : Nat} (hd : 0 < d) (j : ℤ) :
    |(n / d : ℚ) - roundHalfEven n d| ≤ |(n / d : ℚ) - j| ∧
    ((j : ℚ) ≠ roundHalfEven n d → |(n / d : ℚ) - j| = |(n / d : ℚ) - roundHalfEven n d| → roundHalfEven n d % 2 = 0) := by
  obtain ⟨h1, h2⟩ := roundHalfEven_half n hd
  by_cases hj : j = (roundHalfEven n d : ℤ)
  · subst hj; exact ⟨le_rfl, fun h => absurd (by simp) h⟩
  · have : (1 : ℚ) ≤ |(j : ℚ) - roundHalfEven n d| := by
      have : (1 : ℤ) ≤ |j - roundHalfEven n d| := Int.one_le_abs (sub_ne_zero.2 hj)
      exact_mod_cast this
    have h3 : |(j : ℚ) - roundHalfEven n d| ≤ |(n / d : ℚ) - j| + |(n / d : ℚ) - roundHalfEven n d| := by
      rw [abs_sub_comm (n / d : ℚ) j]; exact abs_sub_le _ _ _
    exact ⟨by linarith, fun _ he => h2 (by linarith)⟩

/-! ### Patterns -/

theorem binExp_ofNat (N : Nat) : binExp (BitVec.ofNat 64 N) = N / 2 ^ 52 % 2 ^ 11 := by
  simp [binExp, BitVec.extractLsb'_toNat, Nat.shiftRight_eq_div_pow]; omega
theorem binFrac_ofNat (N : Nat) : binFrac (BitVec.ofNat 64 N) = N % 2 ^ 52 := by
  simp [binFrac, BitVec.extractLsb'_toNat, Nat.shiftRight_eq_div_pow]
theorem binSign_ofNat (N : Nat) : binSign (BitVec.ofNat 64 N) = decide (N / 2 ^ 63 % 2 = 1) := by
  rw [binSign, BitVec.getLsbD_ofNat, Nat.testBit_eq_decide_div_mod_eq]; simp

/-- The value of the pattern `k * 2 ^ 52 + q` with a sign, where `q` is a significand in the units of the exponent
field `k + 1`; `q = 2 ^ 53` carries into that field. -/
theorem binValue?_ofNat (neg : Bool) (k q : Nat) (hq : q ≤ 2 ^ 53) (hk : 2 ^ 52 ≤ q ∨ k = 0) (hm : k * 2 ^ 52 + q < 2047 * 2 ^ 52) :
    binValue? (BitVec.ofNat 64 ((if neg then 2 ^ 63 else 0) + (k * 2 ^ 52 + q))) = some ((if neg then -1 else 1) * (q : ℚ) * (2 : ℚ) ^ ((k : ℤ) - 1074)) := by
  unfold binValue? binSig
  rw [binExp_ofNat, binFrac_ofNat, binSign_ofNat]
  have hs : (((if neg then 2 ^ 63 else 0) + (k * 2 ^ 52 + q)) / 2 ^ 63 % 2 = 1) ↔ neg = true := by
    cases neg <;> simp <;> omega
  rw [show decide (((if neg then 2 ^ 63 else 0) + (k * 2 ^ 52 + q)) / 2 ^ 63 % 2 = 1) = neg by rw [Bool.eq_iff_iff, decide_eq_true_iff]; exact hs]
  have hE : ((if neg then 2 ^ 63 else 0) + (k * 2 ^ 52 + q)) / 2 ^ 52 % 2 ^ 11 = (k * 2 ^ 52 + q) / 2 ^ 52 := by
    cases neg <;> simp <;> omega
  have hF : ((if neg then 2 ^ 63 else 0) + (k * 2 ^ 52 + q)) % 2 ^ 52 = q % 2 ^ 52 := by
    cases neg <;> simp; omega
  rw [hE, hF, if_neg (by omega)]
  congr 1
  rcases Nat.lt_or_ge q (2 ^ 52) with h | h
  · have hk0 : k = 0 := by omega
    subst hk0
    rw [show (0 * 2 ^ 52 + q) / 2 ^ 52 = 0 by omega, Nat.mod_eq_of_lt h]; norm_num
  · rcases Nat.lt_or_ge q (2 ^ 53) with h' | h'
    · rw [show (k * 2 ^ 52 + q) / 2 ^ 52 = k + 1 by omega, if_neg (Nat.succ_ne_zero k), show 2 ^ 52 + q % 2 ^ 52 = q by omega]
      congr 2; push_cast; rw [max_eq_left (by omega)]; ring
    · have : q = 2 ^ 53 := by omega
      subst this
      rw [show (k * 2 ^ 52 + 2 ^ 53) / 2 ^ 52 = k + 2 by omega, if_neg (Nat.succ_ne_zero (k + 1))]
      rw [show 2 ^ 52 + 2 ^ 53 % 2 ^ 52 = 2 ^ 52 from rfl, max_eq_left (by push_cast; omega)]
      rw [show (((k + 2 : ℕ) : ℤ) - 1075) = ((k : ℤ) - 1074) + 1 by push_cast; ring, zpow_add₀ (by norm_num)]
      push_cast; ring

/-- A number some finite binary64 may stand for: 53 bits and an exponent. -/
def FiniteValue (y : ℚ) : Prop := ∃ (s : Nat) (g : ℤ), s < 2 ^ 53 ∧ -1074 ≤ g ∧ (y = s * 2 ^ g ∨ y = -(s * 2 ^ g))
theorem FiniteValue.neg {y} (h : FiniteValue y) : FiniteValue (-y) := by
  obtain ⟨s, g, h1, h2, h3⟩ := h
  exact ⟨s, g, h1, h2, by rcases h3 with h | h; right; rw [h]; left; rw [h, neg_neg]⟩
theorem binValue?_finite {w : Binary64} {y : ℚ} (h : binValue? w = some y) : FiniteValue y := by
  unfold binValue? at h
  split at h
  · cases h
  · cases h
    refine ⟨binSig w, (max (binExp w) 1 : ℤ) - 1075, ?_, by have := le_max_right (binExp w : ℤ) 1; omega, ?_⟩
    · have : binFrac w < 2 ^ 52 := (w.extractLsb' 0 52).isLt
      unfold binSig; split <;> omega
    · cases binSign w
      · left; simp
      · right; simp

theorem abs_sub_mul_le {x q u y : ℚ} (hu : 0 < u) : |x - q * u| ≤ |x - y * u| ↔ |x / u - q| ≤ |x / u - y| := by
  have : ∀ z : ℚ, |x - z * u| = |x / u - z| * u := by
    intro z; rw [← abs_of_pos hu, ← abs_mul, abs_of_pos hu]; congr 1; field_simp
  rw [this, this]; exact mul_le_mul_iff_left₀ hu
theorem abs_sub_mul_eq {x q u y : ℚ} (hu : 0 < u) : |x - y * u| = |x - q * u| ↔ |x / u - y| = |x / u - q| := by
  have : ∀ z : ℚ, |x - z * u| = |x / u - z| * u := by
    intro z; rw [← abs_of_pos hu, ← abs_mul, abs_of_pos hu]; congr 1; field_simp
  rw [this, this]; exact mul_left_inj' hu.ne'

/-! ### The nearest binary64 -/

/-- The multiple of a unit nearest to `x` is the nearest of all finite values, when the unit fits the size of `x`. -/
theorem grid_nearest {x : ℚ} {f : ℤ} {q : Nat} (hx : 0 ≤ x) (hfx : (2 : ℚ) ^ f ≤ x ∨ f = -1022)
    (hq : ∀ j : ℤ, |x / 2 ^ (f - 52) - q| ≤ |x / 2 ^ (f - 52) - j| ∧ ((j : ℚ) ≠ q → |x / 2 ^ (f - 52) - j| = |x / 2 ^ (f - 52) - q| → q % 2 = 0))
    {y : ℚ} (h : FiniteValue y) :
    |x - q * 2 ^ (f - 52)| ≤ |x - y| ∧ (y ≠ q * 2 ^ (f - 52) → |x - y| = |x - q * 2 ^ (f - 52)| → q % 2 = 0) := by
  have hu : (0 : ℚ) < 2 ^ (f - 52) := by positivity
  have grid : ∀ j : ℤ, |x - q * 2 ^ (f - 52)| ≤ |x - j * 2 ^ (f - 52)| ∧ ((j : ℚ) * 2 ^ (f - 52) ≠ q * 2 ^ (f - 52) → |x - j * 2 ^ (f - 52)| = |x - q * 2 ^ (f - 52)| → q % 2 = 0) := by
    intro j
    rw [abs_sub_mul_le hu, abs_sub_mul_eq hu]
    exact ⟨(hq j).1, fun h => (hq j).2 (fun hc => h (by rw [hc]))⟩
  obtain ⟨s, g, hs, hg, hy⟩ := h
  have hsq : (s : ℚ) < 2 ^ 53 := by exact_mod_cast hs
  rcases hy with hy | hy
  · by_cases hge : f - 52 ≤ g
    · have hc : y = ((s * 2 ^ (g - (f - 52)).toNat : ℕ) : ℤ) * 2 ^ (f - 52) := by
        rw [hy]; push_cast
        rw [mul_assoc, ← zpow_natCast, ← zpow_add₀ (by norm_num)]; congr 2; omega
      rw [hc]; exact grid _
    · have hff : (2 : ℚ) ^ f ≤ x := by rcases hfx with h | h; exact h; omega
      have hlt : y < 2 ^ f := by
        rw [hy]
        calc (s : ℚ) * 2 ^ g < 2 ^ 53 * 2 ^ g := by gcongr
          _ = 2 ^ (53 + g) := by rw [zpow_add₀ (by norm_num)]; norm_num
          _ ≤ 2 ^ f := zpow_le_zpow_right₀ (by norm_num) (by omega)
      have h2 : (2 : ℚ) ^ f = ((2 ^ 52 : ℤ) : ℚ) * 2 ^ (f - 52) := by
        push_cast; rw [show f = (52 : ℤ) + (f - 52) by ring, zpow_add₀ (by norm_num)]; norm_num
      have := (grid (2 ^ 52)).1
      rw [← h2] at this
      have h3 : |x - 2 ^ f| < |x - y| := by rw [abs_of_nonneg (by linarith), abs_of_nonneg (by linarith)]; linarith
      exact ⟨by linarith, fun _ he => by linarith⟩
  · have h0 := (grid 0).1
    simp only [Int.cast_zero, zero_mul, sub_zero] at h0
    have hyn : y ≤ 0 := by rw [hy]; have : (0:ℚ) ≤ s * 2 ^ g := by positivity
                           linarith
    by_cases hy0 : y = 0
    · have := grid 0; simpa [hy0] using this
    · have : |x| < |x - y| := by
        rw [abs_of_nonneg hx, abs_of_nonneg (by linarith)]
        have := lt_of_le_of_ne hyn hy0; linarith
      exact ⟨by linarith, fun _ he => by linarith⟩

/-- The exponent `nearestMagnitude` finds is that of the quotient. -/
theorem log2_bounds {n d : Nat} (hn : n ≠ 0) (hd : d ≠ 0) :
   let e : Int := (n.log2 : Int) - d.log2 - (if d * 2 ^ n.log2 ≤ n * 2 ^ d.log2 then 0 else 1)
   (2 : ℚ) ^ e ≤ n / d ∧ (n / d : ℚ) < 2 ^ (e + 1) := by
  intro e
  have hee : e = (n.log2 : Int) - d.log2 - (if d * 2 ^ n.log2 ≤ n * 2 ^ d.log2 then 0 else 1) := rfl
  have hdp : (0 : ℚ) < d := by positivity
  have hn1 : 2 ^ n.log2 ≤ n := Nat.log2_self_le hn
  have hn2 : n < 2 ^ (n.log2 + 1) := Nat.lt_log2_self
  have hd1 : 2 ^ d.log2 ≤ d := Nat.log2_self_le hd
  have hd2 : d < 2 ^ (d.log2 + 1) := Nat.lt_log2_self
  clear_value e
  generalize n.log2 = a at *
  generalize d.log2 = b at *
  have p (z : ℤ) : (2 : ℚ) ^ ((a : ℤ) - b + z) = 2 ^ a / 2 ^ b * 2 ^ z := by
    rw [zpow_add₀ (by norm_num), zpow_sub₀ (by norm_num)]; simp
  have hb : (0 : ℚ) < 2 ^ b := by positivity
  have hn1' : (2 : ℚ) ^ a ≤ n := by exact_mod_cast hn1
  have hn2' : (n : ℚ) < 2 ^ (a + 1) := by exact_mod_cast hn2
  have hd1' : (2 : ℚ) ^ b ≤ d := by exact_mod_cast hd1
  have hd2' : (d : ℚ) < 2 ^ (b + 1) := by exact_mod_cast hd2
  rw [pow_succ] at hn2' hd2'
  rw [le_div_iff₀ hdp, div_lt_iff₀ hdp]
  by_cases hc : d * 2 ^ a ≤ n * 2 ^ b
  · have he : e = (a : ℤ) - b + 0 := by rw [hee, if_pos hc]; ring
    have hc' : (d : ℚ) * 2 ^ a ≤ n * 2 ^ b := by exact_mod_cast hc
    rw [he, p, show (a : ℤ) - b + 0 + 1 = a - b + 1 by ring, p]
    constructor
    · rw [div_mul_eq_mul_div, div_mul_eq_mul_div, div_le_iff₀ hb]; simp; linarith
    · rw [div_mul_eq_mul_div, div_mul_eq_mul_div, lt_div_iff₀ hb]; simp; nlinarith [show (0:ℚ) < 2 ^ a by positivity]
  · have he : e = (a : ℤ) - b + (-1) := by rw [hee, if_neg hc]; ring
    have hc' : (n : ℚ) * 2 ^ b < d * 2 ^ a := by exact_mod_cast (not_le.1 hc)
    rw [he, p, show (a : ℤ) - b + (-1) + 1 = a - b + 0 by ring, p]
    constructor
    · rw [div_mul_eq_mul_div, div_mul_eq_mul_div, div_le_iff₀ hb]; norm_num; nlinarith [show (0:ℚ) < 2 ^ a by positivity]
    · rw [div_mul_eq_mul_div, div_mul_eq_mul_div, lt_div_iff₀ hb]; simp; linarith

/-- The two ways `nearestMagnitude` scales its quotient give the same number in units of `2 ^ (f - 52)`. -/
theorem scaled_quotient (n d : Nat) (hd : 0 < d) (f : ℤ) :
    ∃ N D : Nat, 0 < D ∧ (if f ≥ 52 then roundHalfEven n (d * 2 ^ (f - 52).toNat) else roundHalfEven (n * 2 ^ (52 - f).toNat) d) = roundHalfEven N D ∧
      (n / d : ℚ) / 2 ^ (f - 52) = N / D := by
  by_cases h : f ≥ 52
  · refine ⟨_, _, by positivity, if_pos h, ?_⟩
    push_cast
    rw [div_div, ← zpow_natCast, Int.toNat_of_nonneg (by omega)]
  · refine ⟨_, _, hd, if_neg h, ?_⟩
    push_cast
    rw [← zpow_natCast, Int.toNat_of_nonneg (by omega), show f - 52 = -(52 - f) by ring, zpow_neg]
    field_simp

theorem two_pow_1024 : (2 : ℚ) ^ 1024 = 2 ^ 54 * 2 ^ 970 := by rw [← pow_add]
theorem two_pow_971 : (2 : ℚ) ^ 971 = 2 * 2 ^ 970 := by rw [← pow_succ']
theorem two_pow_1023 : (2 : ℚ) ^ 1023 = 2 ^ 53 * 2 ^ 970 := by rw [← pow_add]
theorem two_pow_970_pos : (0 : ℚ) < 2 ^ 970 := by positivity
/-- All that `nearestMagnitude` can answer: the pattern of the nearest finite value, ties to the even one, or from half
a unit above the largest finite number on the pattern of infinity. -/
theorem nearestMagnitude_spec (n d : Nat) (hd : 0 < d) :
   ((n / d : ℚ) < 2 ^ 1024 - 2 ^ 970 → ∃ k q : Nat, nearestMagnitude n d = k * 2 ^ 52 + q ∧ q ≤ 2 ^ 53 ∧ (2 ^ 52 ≤ q ∨ k = 0) ∧ k * 2 ^ 52 + q < 2047 * 2 ^ 52 ∧
      ∀ y, FiniteValue y → |(n / d : ℚ) - q * 2 ^ ((k : ℤ) - 1074)| ≤ |(n / d : ℚ) - y| ∧ (y ≠ q * 2 ^ ((k : ℤ) - 1074) → |(n / d : ℚ) - y| = |(n / d : ℚ) - q * 2 ^ ((k : ℤ) - 1074)| → q % 2 = 0)) ∧
   (¬ (n / d : ℚ) < 2 ^ 1024 - 2 ^ 970 → nearestMagnitude n d = 2047 * 2 ^ 52) := by
  by_cases hn : n = 0
  · subst hn
    have hz : nearestMagnitude 0 d = 0 := rfl
    refine ⟨fun _ => ⟨0, 0, by simp [hz], by norm_num, .inr rfl, by norm_num, ?_⟩, fun h => absurd ?_ h⟩
    · intro y _; simp
    · have := two_pow_1024; have := two_pow_970_pos; generalize (2:ℚ)^1024 = P at *; generalize (2:ℚ)^970 = Q at *; simp; linarith
  obtain ⟨hb1, hb2⟩ := log2_bounds hn (by omega : d ≠ 0)
  unfold nearestMagnitude
  rw [if_neg hn]
  simp only
  generalize (n.log2 : Int) - d.log2 - (if d * 2 ^ n.log2 ≤ n * 2 ^ d.log2 then 0 else 1) = e at *
  have hx0 : (0 : ℚ) ≤ n / d := by positivity
  by_cases he : e ≥ 1024
  · rw [if_pos he]
    have : (2 : ℚ) ^ (1024 : ℤ) ≤ n / d := le_trans (zpow_le_zpow_right₀ (by norm_num) he) hb1
    refine ⟨fun h => absurd h ?_, fun _ => by norm_num⟩
    rw [not_lt]; refine le_trans ?_ this; 
    rw [show ((1024 : ℤ)) = ((1024 : ℕ) : ℤ) from rfl, zpow_natCast]
    have := two_pow_970_pos; generalize (2:ℚ)^1024 = P at *; generalize (2:ℚ)^970 = Q at *; linarith
  rw [if_neg he]
  have hfm : max e (-1022) ≥ -1022 := le_max_right _ _
  have hfx : (2 : ℚ) ^ (max e (-1022)) ≤ n / d ∨ max e (-1022) = -1022 := by
    rcases le_total e (-1022) with h | h
    · right; exact max_eq_right h
    · left; rw [max_eq_left h]; exact hb1
  have hup : (n / d : ℚ) < 2 ^ (max e (-1022) + 1) := lt_of_lt_of_le hb2 (zpow_le_zpow_right₀ (by norm_num) (by have := le_max_left e (-1022); omega))
  have hf2 : max e (-1022) ≤ 1023 := max_le (by omega) (by omega)
  generalize max e (-1022) = f at *
  obtain ⟨N, D, hD, hq, hND⟩ := scaled_quotient n d hd f
  rw [hq]
  have hu : (0 : ℚ) < 2 ^ (f - 52) := by positivity
  have hnear := roundHalfEven_nearest N hD
  obtain ⟨hh1, hh2⟩ := roundHalfEven_half N hD
  rw [← hND] at hnear hh1 hh2
  generalize roundHalfEven N D = q at *
  have hpow : (2 : ℚ) ^ (f + 1) / 2 ^ (f - 52) = 2 ^ 53 := by
    rw [← zpow_sub₀ (by norm_num), show f + 1 - (f - 52) = ((53 : ℕ) : ℤ) by ring, zpow_natCast]
  have hpow2 : (2 : ℚ) ^ f / 2 ^ (f - 52) = 2 ^ 52 := by
    rw [← zpow_sub₀ (by norm_num), show f - (f - 52) = ((52 : ℕ) : ℤ) by ring, zpow_natCast]
  have hlt : (n / d : ℚ) / 2 ^ (f - 52) < 2 ^ 53 := by rw [← hpow]; exact div_lt_div_of_pos_right hup hu
  rw [abs_le] at hh1
  have hq53 : q ≤ 2 ^ 53 := by
    have h1 : (q : ℚ) < 2 ^ 53 + 1 := by linarith [hh1.1]
    have : q < 2 ^ 53 + 1 := by exact_mod_cast h1
    omega
  have hq52 : 2 ^ 52 ≤ q ∨ (f + 1022).toNat = 0 := by
    rcases hfx with h | h
    · left
      have h2 : (2 : ℚ) ^ 52 ≤ (n / d : ℚ) / 2 ^ (f - 52) := by rw [← hpow2]; exact div_le_div_of_nonneg_right h hu.le
      have h1 : (2 ^ 52 : ℚ) - 1 < q := by linarith [hh1.2]
      have : (2 ^ 52 : ℤ) - 1 < q := by exact_mod_cast h1
      omega
    · right; omega
  have hfk : ((f + 1022).toNat : ℤ) - 1074 = f - 52 := by omega
  refine ⟨fun hx => ⟨(f + 1022).toNat, q, rfl, hq53, hq52, ?_, ?_⟩, fun hx => ?_⟩
  · by_contra hc
    have hff : f = 1023 := by omega
    have hqq : q = 2 ^ 53 := by omega
    subst hff
    have : (n / d : ℚ) / 2 ^ ((1023 : ℤ) - 52) < 2 ^ 53 - 1 / 2 := by
      rw [div_lt_iff₀ hu]; refine lt_of_lt_of_le hx (le_of_eq ?_)
      rw [show (1023 : ℤ) - 52 = ((971 : ℕ) : ℤ) by norm_num, zpow_natCast, two_pow_1024, two_pow_971]; generalize (2:ℚ)^970 = Q; ring
    rw [hqq] at hh1; push_cast at hh1; linarith [hh1.1]
  · intro y hw
    rw [hfk]
    exact grid_nearest hx0 hfx (fun j => hnear j) hw
  · rw [not_lt] at hx
    have hff : f = 1023 := by
      by_contra hc
      have h1 : (n / d : ℚ) < 2 ^ (1023 : ℤ) := lt_of_lt_of_le hup (zpow_le_zpow_right₀ (by norm_num) (by omega))
      rw [show (1023 : ℤ) = ((1023 : ℕ) : ℤ) from rfl, zpow_natCast] at h1
      rw [two_pow_1023] at h1; rw [two_pow_1024] at hx; have := two_pow_970_pos; generalize (2:ℚ)^970 = Q at *; linarith
    subst hff
    have h3 : (2 ^ 53 - 1 / 2 : ℚ) ≤ (n / d : ℚ) / 2 ^ ((1023 : ℤ) - 52) := by
      rw [le_div_iff₀ hu]; refine le_trans (le_of_eq ?_) hx
      rw [show (1023 : ℤ) - 52 = ((971 : ℕ) : ℤ) by norm_num, zpow_natCast, two_pow_1024, two_pow_971]; generalize (2:ℚ)^970 = Q; ring
    have h4 : (2 ^ 53 : ℚ) - 1 ≤ q := by linarith [hh1.2]
    have h5 : (2 ^ 53 : ℤ) - 1 ≤ q := by exact_mod_cast h4
    have h6 : q ≠ 2 ^ 53 - 1 := by
      intro hc
      have : q % 2 = 0 := hh2 (by
        apply le_antisymm (abs_le.2 hh1)
        rw [le_abs]; left; rw [hc]; push_cast; norm_num at h3 ⊢; linarith)
      omega
    have : q = 2 ^ 53 := by omega
    rw [this]; rfl

end Sys2Proof.Machine
end

