-- ==== Sys2Proof/Certificates/Slice0/Obligations.lean ====
section
/-! DEFINITION. The statements for the provers, family by family. A result statement gives the next state of a
command whole: what it writes, and that every other field of State is as it was (written: the next state with
the written fields put back is the state before). -/

open Sys2Proof Sys2Proof.Machine

/-! ### Encoding (30_encoding.md) -/

/-- R47 to R54: the decoder reads every command back from its canonical encoding, whatever its operands. -/
def Obligations.DecodeOfEncode : Prop := ∀ i : Instr, decode (encode i) = .ok i

/-- R54, R55: a bundle that decodes is the canonical encoding of its command but for the unused bits. -/
def Obligations.EncodeOfDecode : Prop :=
  ∀ (w : Bundle) (i : Instr), decode w = .ok i → encode i = w &&& i.format.usedBits

/-- R54: the bits a format does not use take no part in decoding. -/
def Obligations.UnusedBitsIgnored : Prop :=
  ∀ (w u : Bundle) (i : Instr), decode w = .ok i → u &&& i.format.usedBits = 0 → decode (w ^^^ u) = .ok i

/-- R49: `op` alone selects the command, by the match and mask of R49; the other opcodes are reserved. -/
def Obligations.OpcodeMap : Prop :=
  ∀ w : Bundle,
    let op := w &&& 0xF00000000000000000000000
    (decode w = .ok .setup ↔ op = 0x100000000000000000000000) ∧
    ((∃ idx r g b, decode w = .ok (.setPixel idx r g b)) ↔ op = 0x200000000000000000000000) ∧
    ((∃ r g b, decode w = .ok (.setAll r g b)) ↔ op = 0x300000000000000000000000) ∧
    ((∃ v, decode w = .ok (.setBrt v)) ↔ op = 0x400000000000000000000000) ∧
    ((∃ idx v, decode w = .ok (.setPixBrt idx v)) ↔ op = 0x500000000000000000000000) ∧
    (decode w = .ok .clear ↔ op = 0x600000000000000000000000) ∧
    (decode w = .ok .showCmd ↔ op = 0x700000000000000000000000) ∧
    (decode w = .ok .close ↔ op = 0x800000000000000000000000) ∧
    ((∃ en, decode w = .ok (.setCoe en)) ↔ op = 0x900000000000000000000000) ∧
    ((∃ e, decode w = .error e) ↔ op = 0 ∨ 0xA00000000000000000000000 ≤ op)

/-- R50 to R53, 95_test_vectors.md D-1 to D-9: bundles written out from the field table of R47. -/
def Obligations.KnownBundlesDecode : Prop :=
  decode 0x100000000000000000000000 = .ok .setup ∧
  decode 0x20FF00800000000000000000 = .ok (.setPixel 0 255 0 128) ∧
  decode 0x3F0A141E0000000000000000 = .ok (.setAll 10 20 30) ∧
  decode 0x400000003FF0000000000000 = .ok (.setBrt 0x3FF0000000000000) ∧
  decode 0x550000003FD0000000000000 = .ok (.setPixBrt 5 0x3FD0000000000000) ∧
  decode 0x600000000000000000000000 = .ok .clear ∧
  decode 0x7FFFFFFFFFFFFFFFFFFFFFFF = .ok .showCmd ∧
  decode 0x800000000000000000000000 = .ok .close ∧
  decode 0x900000010000000000000000 = .ok (.setCoe true) ∧
  decode 0x900000FE0000000000000000 = .ok (.setCoe false) ∧
  decode 0 = .error (.reservedOpcode 0) ∧
  decode 0xA00000000000000000000000 = .error (.reservedOpcode 0xA)

/-- R59: a source line the operand check accepts stands for the command of its mnemonic, each operand the value of
its literal. What `literalBrightness` is of a decimal number is DecimalOperandIsNearest. -/
def Obligations.CheckedLineNamesCommand : Prop :=
  ∀ s : SourceLine, checkSource s = .ok () →
    (s = ⟨"SETUP", []⟩ ∧ commandOf s = some .setup) ∨
    (∃ i r g b idx red green blue, s = ⟨"SETPIXEL", [i, r, g, b]⟩ ∧
      commandOf s = some (.setPixel idx red green blue) ∧ i.int? = some idx.toNat ∧
      r.int? = some red.toNat ∧ g.int? = some green.toNat ∧ b.int? = some blue.toNat) ∨
    (∃ r g b red green blue, s = ⟨"SETALL", [r, g, b]⟩ ∧ commandOf s = some (.setAll red green blue) ∧
      r.int? = some red.toNat ∧ g.int? = some green.toNat ∧ b.int? = some blue.toNat) ∨
    (∃ l v, s = ⟨"SETBRT", [l]⟩ ∧ commandOf s = some (.setBrt v) ∧ v = literalBrightness l ∧
      ∀ digits n, l = .hex digits n → digits = 16 ∧ v.toNat = n) ∨
    (∃ i l idx v, s = ⟨"SETPIXBRT", [i, l]⟩ ∧ commandOf s = some (.setPixBrt idx v) ∧
      i.int? = some idx.toNat ∧ v = literalBrightness l ∧
      ∀ digits n, l = .hex digits n → digits = 16 ∧ v.toNat = n) ∨
    (s = ⟨"CLEAR", []⟩ ∧ commandOf s = some .clear) ∨
    (s = ⟨"SHOW", []⟩ ∧ commandOf s = some .showCmd) ∨
    (s = ⟨"CLOSE", []⟩ ∧ commandOf s = some .close) ∨
    (∃ e en, s = ⟨"SETCOE", [e]⟩ ∧ commandOf s = some (.setCoe en) ∧ e.int? = some en.toNat)

/-! ### The step (20_memory.md R39; 10_state.md R25) -/

/-- R25, R39, R47: a bundle on the command port that decodes to a command is that command executed, once the
bundle has been taken. -/
def Obligations.StepRunsDecodedCommand : Prop :=
  ∀ (s : State) (w : Bundle) (rest : List Input) (i : Instr),
    s.inputs = .command w :: rest → decode w = .ok i → step s = exec i { s with inputs := rest }

/-- R55, R107: a bundle with a reserved opcode is refused by a running block, by name. -/
def Obligations.ReservedOpcodeRefused : Prop :=
  ∀ (s : State) (w : Bundle) (rest : List Input),
    s.halt = .running → s.inputs = .command w :: rest →
    (opField w = 0 ∨ 0xA ≤ opField w) → step s = .refused (.reservedOpcode (opField w))

/-- R121 (the block waits); the idle step is the model's form of it, log entry 8. -/
def Obligations.IdleChangesNothing : Prop := ∀ s : State, s.inputs = [] → step s = .next s

/-! ### Reset (10_state.md R27 to R29; 70_reset_and_hazards.md R120, R121) -/

/-- R27: reset, from any state, leaves every pixel black with brightness 15, `prev` equal to `cur` and `changed`
false; no piece of the block's or the lines' state survives it. -/
def Obligations.ResetLeavesPixels : Prop :=
  ∀ (s : State) (failing : List Nat) (rest : List Input), s.inputs = .reset failing :: rest →
    ∃ t, step s = .next t ∧ t.changed = false ∧
      (t.mode = .uninitialized ∧ t.halt = .running ∧ t.coeArmed = false ∧ ∀ l, t.line l = LineState.reset) ∧
      ∀ i, (t.cur.get i).R = 0 ∧ (t.cur.get i).G = 0 ∧ (t.cur.get i).B = 0 ∧ (t.cur.get i).BRT = 15 ∧
        t.prev.get i = t.cur.get i

/-- R28: reset, from any state, leaves `mode = Uninitialized`, `halt = Running`, `coe_armed = 0`. -/
def Obligations.ResetLeavesControl : Prop :=
  ∀ (s : State) (failing : List Nat) (rest : List Input), s.inputs = .reset failing :: rest →
    ∃ t, step s = .next t ∧ t.mode = .uninitialized ∧ t.halt = .running ∧ t.coeArmed = false

/-- R29, R120, R121: the reset input does no I/O and leaves the machine in the state after reset, of a new run with
an empty trace. That the inputs to come stay and that the new run has its own oracle is the model's choice
(log entry 12). -/
def Obligations.ResetStartsNewRun : Prop :=
  ∀ (s : State) (failing : List Nat) (rest : List Input), s.inputs = .reset failing :: rest →
    ∃ t, step s = .next t ∧ t.trace = [] ∧
      (∀ l, (t.line l).configured = false ∧ (t.line l).level = none) ∧
      { t with draws := 0 } = State.start rest failing

/-! ### SETUP (42_controller.md R85) -/

/-- R85: a SETUP whose two calls are ok configures both lines in the order `SETUP_ORDER` and enters Ready; it
writes no level and no register. -/
def Obligations.SetupConfiguresBothLines : Prop :=
  ∀ s : State, s.RunningIn .uninitialized → s.NextCallsOk 2 →
    ∃ t, exec .setup s = .next t ∧ t.mode = .ready ∧
      t.trace = s.trace ++ [.cfg Config.setupOrder.first, .cfg Config.setupOrder.second] ∧
      (∀ l, (t.line l).configured = true ∧ (t.line l).level = (s.line l).level) ∧
      { t with mode := s.mode, trace := s.trace, clk := s.clk, dat := s.dat } = s

/-- R85, R99, R104: a SETUP whose call number `k` is the first to fail halts with `IOFailure`, still Uninitialized;
the failed call's event is the last one; no level is written, and a line's flag is as it was or set. -/
def Obligations.SetupFailureHalts : Prop :=
  ∀ (s : State) (k : Nat), k < 2 → s.RunningIn .uninitialized → s.NextCallsOk k →
    s.trace.length + k ∈ s.failing →
    ∃ t, exec .setup s = .next t ∧ t.halt = .fatal (.ioFailure (s.trace.length + k)) ∧
      t.trace = s.trace ++ [.cfg Config.setupOrder.first, .cfg Config.setupOrder.second].take (k + 1) ∧
      (∀ l, (t.line l).level = (s.line l).level ∧
        ((t.line l).configured = (s.line l).configured ∨ (t.line l).configured = true)) ∧
      (k = 0 → t.line Config.setupOrder.second = s.line Config.setupOrder.second) ∧
      (k = 1 → (t.line Config.setupOrder.first).configured = true) ∧
      { t with halt := s.halt, trace := s.trace, clk := s.clk, dat := s.dat, draws := s.draws } = s

/-! ### The Pixel State Store (40_pixel_store.md) -/

/-- R66: SETPIXEL with an index 0 to 7 writes the colour of that pixel and nothing else. -/
def Obligations.SetPixelWritesColour : Prop :=
  ∀ (s : State) (idx : BitVec 4) (i : Fin 8) (r g b : Byte), s.RunningIn .ready → idx.toNat = i.val →
    ∃ t, exec (.setPixel idx r g b) s = .next t ∧
      (t.cur.get i).R = r ∧ (t.cur.get i).G = g ∧ (t.cur.get i).B = b ∧ (t.cur.get i).BRT = (s.cur.get i).BRT ∧
      (∀ j, j ≠ i → t.cur.get j = s.cur.get j) ∧ { t with cur := s.cur } = s

/-- R66, R105, R106, R112: SETPIXEL with an index 8 to 15 halts with cause 3 and changes nothing else. -/
def Obligations.SetPixelIndexFault : Prop :=
  ∀ (s : State) (idx : BitVec 4) (r g b : Byte), s.RunningIn .ready → 8 ≤ idx.toNat →
    exec (.setPixel idx r g b) s = .next { s with halt := .fatal (.indexOutOfRange idx) } ∧
      (FatalCause.indexOutOfRange idx).code = 3 ∧ (FatalCause.indexOutOfRange idx).info = idx.toNat

/-- R67: SETALL writes the same colour into every pixel and nothing else. -/
def Obligations.SetAllWritesEveryColour : Prop :=
  ∀ (s : State) (r g b : Byte), s.RunningIn .ready →
    ∃ t, exec (.setAll r g b) s = .next t ∧
      (∀ i, (t.cur.get i).R = r ∧ (t.cur.get i).G = g ∧ (t.cur.get i).B = b ∧
        (t.cur.get i).BRT = (s.cur.get i).BRT) ∧ { t with cur := s.cur } = s

/-- R68: SETBRT with an operand in the unit interval writes its conversion into every brightness and nothing
else. -/
def Obligations.SetBrtWritesEveryBrightness : Prop :=
  ∀ (s : State) (v : Binary64), s.RunningIn .ready → inUnit v = true →
    ∃ t, exec (.setBrt v) s = .next t ∧
      (∀ i, (t.cur.get i).BRT = convert v ∧ (t.cur.get i).R = (s.cur.get i).R ∧
        (t.cur.get i).G = (s.cur.get i).G ∧ (t.cur.get i).B = (s.cur.get i).B) ∧ { t with cur := s.cur } = s

/-- R68, R103, R106, R112: SETBRT with an operand outside the unit interval halts with cause 1, the operand
recorded, and changes nothing else. -/
def Obligations.SetBrtOutsideUnitFault : Prop :=
  ∀ (s : State) (v : Binary64), s.RunningIn .ready → inUnit v = false →
    exec (.setBrt v) s = .next { s with halt := .fatal (.invalidBrightness v) } ∧
      (FatalCause.invalidBrightness v).code = 1 ∧ (FatalCause.invalidBrightness v).info = v.toNat

/-- R69: SETPIXBRT with good operands writes one brightness and nothing else. -/
def Obligations.SetPixBrtWritesBrightness : Prop :=
  ∀ (s : State) (idx : BitVec 4) (i : Fin 8) (v : Binary64), s.RunningIn .ready → idx.toNat = i.val →
    inUnit v = true →
    ∃ t, exec (.setPixBrt idx v) s = .next t ∧
      (t.cur.get i).BRT = convert v ∧ (t.cur.get i).R = (s.cur.get i).R ∧ (t.cur.get i).G = (s.cur.get i).G ∧
      (t.cur.get i).B = (s.cur.get i).B ∧
      (∀ j, j ≠ i → t.cur.get j = s.cur.get j) ∧ { t with cur := s.cur } = s

/-- R69, R103, R105, R113 (a): SETPIXBRT's faults; the brightness is checked first, whatever the index. -/
def Obligations.SetPixBrtFaults : Prop :=
  ∀ (s : State) (idx : BitVec 4) (v : Binary64), s.RunningIn .ready →
    (inUnit v = false →
      exec (.setPixBrt idx v) s = .next { s with halt := .fatal (.invalidBrightness v) }) ∧
    (inUnit v = true → 8 ≤ idx.toNat →
      exec (.setPixBrt idx v) s = .next { s with halt := .fatal (.indexOutOfRange idx) })

/-- R70: CLEAR blackens every pixel, keeps every brightness, and changes nothing else. -/
def Obligations.ClearBlackens : Prop :=
  ∀ s : State, s.RunningIn .ready →
    ∃ t, exec .clear s = .next t ∧
      (∀ i, (t.cur.get i).Black ∧ (t.cur.get i).BRT = (s.cur.get i).BRT) ∧ { t with cur := s.cur } = s

/-- R71: no setter appends an event or touches a line, `prev`, the mode or the arm bit, whether it completes
or faults. -/
def Obligations.SettersDoNoOutput : Prop :=
  ∀ (s t : State) (i : Instr),
    ((∃ idx r g b, i = .setPixel idx r g b) ∨ (∃ r g b, i = .setAll r g b) ∨ (∃ v, i = .setBrt v) ∨
      (∃ idx v, i = .setPixBrt idx v) ∨ i = .clear) →
    exec i s = .next t → { t with cur := s.cur, halt := s.halt } = s ∧ (t.halt ≠ s.halt → t.cur = s.cur)

/-- R16: only SETBRT and SETPIXBRT write a brightness. -/
def Obligations.BrightnessWrittenByBrightnessCommands : Prop :=
  ∀ (s t : State) (i : Instr) (j : Fin 8), (∀ v, i ≠ .setBrt v) → (∀ idx v, i ≠ .setPixBrt idx v) →
    exec i s = .next t → (t.cur.get j).BRT = (s.cur.get j).BRT

/-- R60: CLEAR is SETALL 0, 0, 0 in every state, and SETALL is SETPIXEL on every index, in any order and with any
repetition. -/
def Obligations.CommandEquivalences : Prop :=
  (∀ s : State, exec .clear s = exec (.setAll 0 0 0) s) ∧
  ∀ (s : State) (r g b : Byte) (order : List (Fin 8)), s.RunningIn .ready → (∀ i, i ∈ order) →
    execChain (order.map fun i => Instr.setPixel (BitVec.ofNat 4 i.val) r g b) s = exec (.setAll r g b) s

/-! ### The brightness conversion (40_pixel_store.md R61 to R63) -/

/-- R61: `inUnit v` is true exactly when `v` is a number from 0.0 to 1.0. -/
def Obligations.InUnitIsUnitInterval : Prop :=
  ∀ v : Binary64, inUnit v = true ↔ ∃ q : ℚ, binValue? v = some q ∧ 0 ≤ q ∧ q ≤ 1

/-- R62: the rounding is to a nearest number of 53 significant bits, and to the one with an even significand
when two are equally near. -/
def Obligations.RoundingIsNearestEven : Prop :=
  ∀ p : Nat, Fits53 (fl64 p) ∧ (∀ q, Fits53 q → distance p (fl64 p) ≤ distance p q) ∧
    (∀ q, Fits53 q → q ≠ fl64 p → distance p q = distance p (fl64 p) → (fl64 p / 2 ^ (p.log2 - 52)) % 2 = 0)

/-- R63 (a): the range of the conversion, where it is 31, and where it is 0. -/
def Obligations.ConvertRange : Prop :=
  ∀ (v : Binary64) (q : ℚ), inUnit v = true → binValue? v = some q →
    (convert v).toNat = convertNat v ∧ convertNat v ≤ 31 ∧
    ((convert v).toNat = 31 ↔ v = 0x3FF0000000000000) ∧
    (q < 1 / 31 → v ≠ 0x3FA0842108421084 → (convert v).toNat = 0)

/-- R63 (b): the conversion is monotone. -/
def Obligations.ConvertMonotone : Prop :=
  ∀ (v w : Binary64) (p q : ℚ), inUnit v = true → inUnit w = true → binValue? v = some p → binValue? w = some q →
    p ≤ q → (convert v).toNat ≤ (convert w).toNat

/-- R63 (c): the conversion is the floor of the exact product except on the 19 operands of the table, where it is
one more. -/
def Obligations.ConvertIsFloorButNineteen : Prop :=
  (∀ (v : Binary64) (q : ℚ), inUnit v = true → binValue? v = some q → (exactConvert v : ℤ) = ⌊31 * q⌋) ∧
  (∀ (v : Binary64) (k : Nat), (v, k) ∈ splitOperands →
    inUnit v = true ∧ (convert v).toNat = k ∧ exactConvert v + 1 = k) ∧
  (∀ v : Binary64, inUnit v = true → (∀ k, (v, k) ∉ splitOperands) → (convert v).toNat = exactConvert v)

/-! ### The Frame Encoder (41_frame_encoder.md) and the wire (30_encoding.md R57, R58) -/

/-- R80: the counts of a complete frame. -/
def Obligations.FrameCounts : Prop :=
  sof.length = 65 ∧ (∀ p, (sendWord p).length = 96) ∧ eof.length = 73 ∧
  ∀ c : Strip, (frame c).length = 906 ∧
    ((frame c).filter fun e => decide (e = .wr .dat true ∨ e = .wr .dat false)).length = 258 ∧
    ((frame c).filter fun e => decide (e = .wr .clk true ∨ e = .wr .clk false)).length = 648 ∧
    ((frame c).filter fun e => decide (e = .wr .clk true)).length = 324 ∧
    (∀ l, Event.cfg l ∉ frame c) ∧ Event.rel ∉ frame c

/-- R34, R35, R57, R58, R83: the sampled bit stream of a frame is 32 zeros, the eight pixel words from bit 31 down
to bit 0, pixel 0 first, and 36 zeros. -/
def Obligations.FrameBitStream : Prop :=
  ∀ c : Strip, sampled (frame c) =
    List.replicate 32 (some false) ++
      (c.toList.flatMap fun p => (wordBits (pixelWord p)).map some) ++ List.replicate 36 (some false)

/-- R57, R72: the first byte of a word is `0xE0 + BRT`, from 0xE0 to 0xFF, and it keeps the brightness. -/
def Obligations.FirstByteIsHeaderPlusBrightness : Prop :=
  ∀ p : Pixel, (firstByte p).toNat = 0xE0 + p.BRT.toNat ∧ 0xE0 ≤ (firstByte p).toNat

/-- R79: the number and the targets of a frame's writes, and every write of the clock, are the same for all pixel
contents; only the values of the data writes vary. -/
def Obligations.FrameShapeIndependentOfPixels : Prop :=
  ∀ c d : Strip, (frame c).map (fun e => match e with | .wr .dat _ => Event.wr .dat false | x => x) =
    (frame d).map (fun e => match e with | .wr .dat _ => Event.wr .dat false | x => x)

/-- R83 (a consequence): two strips that give the same frame are equal, so every field of every pixel is sent. -/
def Obligations.FrameDeterminesPixels : Prop := ∀ c d : Strip, frame c = frame d → c = d

/-- R82: whatever the levels before, both lines are low after a complete frame. -/
def Obligations.FrameLeavesLinesLow : Prop :=
  ∀ (c : Strip) (l : Line) (start : Option Bool), levelAfter l start (frame c) = some false

/-! ### The GPIO Line Driver (43_line_driver.md) -/

/-- R94, R95, R98: what an ok call does: its event is logged, its effect is on the lines it names, and nothing
else changes. -/
def Obligations.DriverCallEffects : Prop :=
  ∀ (s : State) (l : Line) (b : Bool), s.trace.length ∉ s.failing →
    (∃ t, issueCall (.cfg l) s = .done t ∧ t.trace = s.trace ++ [.cfg l] ∧
      t.line l = { s.line l with configured := true } ∧ (∀ m, m ≠ l → t.line m = s.line m) ∧
      { t with trace := s.trace, clk := s.clk, dat := s.dat } = s) ∧
    ((s.line l).configured = true →
      ∃ t, issueCall (.wr l b) s = .done t ∧ t.trace = s.trace ++ [.wr l b] ∧
        t.line l = { s.line l with level := some b } ∧ (∀ m, m ≠ l → t.line m = s.line m) ∧
        { t with trace := s.trace, clk := s.clk, dat := s.dat } = s) ∧
    (∃ t, issueCall .rel s = .done t ∧ t.trace = s.trace ++ [.rel] ∧
      (∀ m, t.line m = { s.line m with configured := false }) ∧
      { t with trace := s.trace, clk := s.clk, dat := s.dat } = s)

/-- R99, R104, U5: a failed call logs its event, raises `IOFailure` with its position, and leaves each line as it
was or as an ok call would have left it. Only a write needs its line configured (R95, U16): `cfg` and `rel` are
issued to lines that are not. -/
def Obligations.FailedCallOldOrNew : Prop :=
  ∀ (s : State) (e : Event), s.trace.length ∈ s.failing →
    (∀ l b, e = .wr l b → (s.line l).configured = true) →
    ∃ t, issueCall e s = .raised t ∧ t.halt = .fatal (.ioFailure s.trace.length) ∧ t.trace = s.trace ++ [e] ∧
      (∀ l, t.line l = s.line l ∨ t.line l = (s.line l).after l e) ∧
      { t with halt := s.halt, trace := s.trace, clk := s.clk, dat := s.dat, draws := s.draws } = s

/-! ### SHOW (42_controller.md R86) -/

/-- R86, 95_test_vectors.md V5: SHOW with `cur = prev` changes nothing and issues no call. -/
def Obligations.ShowUnchangedDoesNothing : Prop :=
  ∀ s : State, s.RunningIn .ready → s.cur = s.prev → exec .showCmd s = .next s

/-- R65, R79, R82, R86: SHOW with something changed and no failing call sends exactly one frame and commits. -/
def Obligations.ShowSendsFrameAndCommits : Prop :=
  ∀ s : State, s.RunningIn .ready → s.cur ≠ s.prev → s.LinesConfigured → s.NextCallsOk 906 →
    ∃ t, exec .showCmd s = .next t ∧ t.trace = s.trace ++ frame s.cur ∧ t.prev = s.cur ∧ t.changed = false ∧
      (∀ l, t.line l = { s.line l with level := some false }) ∧
      { t with trace := s.trace, prev := s.prev, clk := s.clk, dat := s.dat } = s

/-- R81, R99, R104: a SHOW whose write number `k` is the first to fail is cut there: the events up to the failed
one are in the trace, nothing is committed, the mode stays and no line is released. -/
def Obligations.ShowFailureCutsFrame : Prop :=
  ∀ (s : State) (k : Nat), s.RunningIn .ready → s.cur ≠ s.prev → s.LinesConfigured → k < 906 →
    s.NextCallsOk k → s.trace.length + k ∈ s.failing →
    ∃ t, exec .showCmd s = .next t ∧ t.halt = .fatal (.ioFailure (s.trace.length + k)) ∧
      t.trace = s.trace ++ (frame s.cur).take (k + 1) ∧
      (∀ l, (t.line l).configured = true ∧
        ((t.line l).level = levelAfter l (s.line l).level ((frame s.cur).take k) ∨
          (t.line l).level = levelAfter l (s.line l).level ((frame s.cur).take (k + 1)))) ∧
      { t with halt := s.halt, trace := s.trace, clk := s.clk, dat := s.dat, draws := s.draws } = s

/-! ### CLOSE (42_controller.md R87, R88) -/

/-- R87: a CLOSE of a strip whose blackened pixels were the last ones sent sends no frame: it blackens, releases
the lines and enters Closed. -/
def Obligations.CloseWithoutFrame : Prop :=
  ∀ s : State, s.RunningIn .ready → s.NextCallsOk 1 →
    (∀ i, s.prev.get i = { s.cur.get i with R := 0, G := 0, B := 0 }) →
    ∃ t, exec .close s = .next t ∧ t.mode = .closed ∧ t.cur = s.prev ∧ t.trace = s.trace ++ [.rel] ∧
      (∀ l, t.line l = { s.line l with configured := false }) ∧
      { t with mode := s.mode, cur := s.cur, trace := s.trace, clk := s.clk, dat := s.dat } = s

/-- R87: any other CLOSE with no failing call sends the black frame, each brightness kept, commits it, releases the
lines and enters Closed. -/
def Obligations.CloseSendsBlackFrame : Prop :=
  ∀ s : State, s.RunningIn .ready → s.LinesConfigured → s.NextCallsOk 907 →
    (∃ i, s.prev.get i ≠ { s.cur.get i with R := 0, G := 0, B := 0 }) →
    ∃ t, exec .close s = .next t ∧ t.mode = .closed ∧
      (∀ i, t.cur.get i = { s.cur.get i with R := 0, G := 0, B := 0 }) ∧ t.prev = t.cur ∧
      t.trace = s.trace ++ frame t.cur ++ [.rel] ∧
      (∀ l, t.line l = { configured := false, level := some false }) ∧
      { t with mode := s.mode, cur := s.cur, prev := s.prev, trace := s.trace, clk := s.clk, dat := s.dat } = s

/-- R87, R81, R99, R104: a CLOSE whose frame is cut at write number `k` halts there: the colours are cleared, nothing
is committed, the mode stays Ready, no line is released, and only the line of the failed write may have its old or
its new level. -/
def Obligations.CloseFailureInFrame : Prop :=
  ∀ (s : State) (k : Nat), s.RunningIn .ready → s.LinesConfigured → k < 906 → s.NextCallsOk k →
    s.trace.length + k ∈ s.failing →
    (∃ i, s.prev.get i ≠ { s.cur.get i with R := 0, G := 0, B := 0 }) →
    ∃ t, exec .close s = .next t ∧ t.halt = .fatal (.ioFailure (s.trace.length + k)) ∧
      (∀ i, t.cur.get i = { s.cur.get i with R := 0, G := 0, B := 0 }) ∧
      t.trace = s.trace ++ (frame t.cur).take (k + 1) ∧
      (∀ l, (t.line l).configured = true ∧
        ((t.line l).level = levelAfter l (s.line l).level ((frame t.cur).take k) ∨
          (t.line l).level = levelAfter l (s.line l).level ((frame t.cur).take (k + 1)))) ∧
      { t with halt := s.halt, cur := s.cur, trace := s.trace, clk := s.clk, dat := s.dat, draws := s.draws } = s

/-- R87, R99, R104, 95_test_vectors.md X7: a CLOSE whose release fails halts with that call as its last event; the
frame, if one was due, was sent and committed, and the mode stays Ready; each line's flag is as it was or cleared,
and its level is what the frame left. -/
def Obligations.CloseFailureAtRelease : Prop :=
  ∀ s : State, s.RunningIn .ready →
    ((∀ i, s.prev.get i = { s.cur.get i with R := 0, G := 0, B := 0 }) → s.trace.length ∈ s.failing →
      ∃ t, exec .close s = .next t ∧ t.halt = .fatal (.ioFailure s.trace.length) ∧ t.mode = .ready ∧
        t.cur = s.prev ∧ t.prev = s.prev ∧ t.trace = s.trace ++ [.rel] ∧
        (∀ l, ((t.line l).configured = (s.line l).configured ∨ (t.line l).configured = false) ∧
          (t.line l).level = (s.line l).level) ∧
        { t with halt := s.halt, cur := s.cur, trace := s.trace, clk := s.clk, dat := s.dat, draws := s.draws } = s) ∧
    ((∃ i, s.prev.get i ≠ { s.cur.get i with R := 0, G := 0, B := 0 }) → s.LinesConfigured → s.NextCallsOk 906 →
      s.trace.length + 906 ∈ s.failing →
      ∃ t, exec .close s = .next t ∧ t.halt = .fatal (.ioFailure (s.trace.length + 906)) ∧ t.mode = .ready ∧
        (∀ i, t.cur.get i = { s.cur.get i with R := 0, G := 0, B := 0 }) ∧ t.prev = t.cur ∧
        t.trace = s.trace ++ frame t.cur ++ [.rel] ∧
        (∀ l, ((t.line l).configured = (s.line l).configured ∨ (t.line l).configured = false) ∧
          (t.line l).level = some false) ∧
        { t with halt := s.halt, cur := s.cur, prev := s.prev, trace := s.trace, clk := s.clk, dat := s.dat,
                 draws := s.draws } = s)

/-- R88, R99, R104: in every reachable state in mode Closed, another CLOSE appends one `rel()` and changes nothing
else; where that call fails the block halts with it as its last event, still in mode Closed, and both lines stay
as they were, released. -/
def Obligations.SecondCloseOnlyReleases : Prop :=
  ∀ s : State, s.Inv → s.RunningIn .closed →
    (s.NextCallsOk 1 → exec .close s = .next { s with trace := s.trace ++ [.rel] }) ∧
    (s.trace.length ∈ s.failing →
      ∃ t, exec .close s = .next t ∧ t.halt = .fatal (.ioFailure s.trace.length) ∧ t.mode = .closed ∧
        t.trace = s.trace ++ [.rel] ∧ (∀ l, (t.line l).configured = false) ∧
        { t with halt := s.halt, trace := s.trace, draws := s.draws } = s)

/-! ### SETCOE and the interrupt (42_controller.md R89; 60_exceptions.md R108 to R116) -/

/-- R89, R23: SETCOE 1 arms, SETCOE 0 does nothing (it does not disarm). -/
def Obligations.SetCoeArms : Prop :=
  ∀ s : State, s.RunningIn .ready →
    exec (.setCoe true) s = .next { s with coeArmed := true } ∧ exec (.setCoe false) s = .next s

/-- R111, R116: an armed interrupt between commands executes CLOSE, and where that completes the block exits with
`EXIT_INT`, which is not 0; where it faults, the fault stands and there is no exit. -/
def Obligations.ArmedInterruptClosesAndExits : Prop :=
  ∀ (s u : State) (rest : List Input), s.inputs = .interrupt :: rest → s.halt = .running → s.coeArmed = true →
    exec .close { s with inputs := rest } = .next u →
    (u.halt = .running → step s = .next { u with halt := .exited Config.exitInt.val }) ∧
    (u.halt ≠ .running → step s = .next u) ∧ Config.exitInt.val ≠ 0

/-- R109, U7, R113 (c): an interrupt while unarmed gives no step; a halted block does nothing on one. -/
def Obligations.UnarmedOrHaltedInterrupt : Prop :=
  ∀ (s : State) (rest : List Input), s.inputs = .interrupt :: rest →
    (s.halt = .running → s.coeArmed = false → step s = .refused .unarmedInterrupt) ∧
    (s.halt ≠ .running → step s = .next { s with inputs := rest })

/-! ### Modes and halting (42_controller.md R84; 10_state.md R21 to R23) -/

/-- R84, R107, R113 (d): a running block refuses a command, its operands unread, exactly where the table of R84
says so. -/
def Obligations.RefusedExactlyInWrongMode : Prop :=
  ∀ (i : Instr) (s : State), s.halt = .running →
    (modeTakes i s.mode = false ↔ exec i s = .refused (.invalidMode s.mode))

/-- R84, R30: in a reachable state a command whose mode takes it answers a next state and is never refused: a running
block completes it or takes the fault it raises. That a halted block, which accepts no command, answers a next state
too, in which the command was dropped, is the model's choice (log entry 7). -/
def Obligations.TakenCommandsNeverRefused : Prop :=
  ∀ (i : Instr) (s : State), s.Inv → modeTakes i s.mode = true → ∃ t, exec i s = .next t

/-- R22, R84, R112, R115: once halted, no input but reset changes anything. -/
def Obligations.HaltIsSticky : Prop :=
  ∀ s : State, s.Halted → s.NoResetNext → step s = .next { s with inputs := s.inputs.tail }

/-- R21, R117: how the mode moves in a step that is no reset. -/
def Obligations.ModeTransitions : Prop :=
  ∀ s t : State, s.NoResetNext → step s = .next t →
    t.mode = s.mode ∨ (s.mode = .uninitialized ∧ t.mode = .ready) ∨ (s.mode = .ready ∧ t.mode = .closed)

/-- R23: a step that is no reset never clears `coe_armed`, and only SETCOE 1 sets it. -/
def Obligations.CoeArmedOnlySet : Prop :=
  ∀ s t : State, s.NoResetNext → step s = .next t →
    t.coeArmed = s.coeArmed ∨
      (t.coeArmed = true ∧ ∃ w rest, s.inputs = .command w :: rest ∧ decode w = .ok (.setCoe true))

/-! ### The whole machine -/

/-- R19, R65: a step that is no reset writes `prev` only by a frame all of whose 906 calls were ok, and then `prev`
is what the frame carried. -/
def Obligations.PrevWrittenOnlyByFlush : Prop :=
  ∀ s t : State, s.NoResetNext → step s = .next t → t.prev ≠ s.prev →
    t.prev = t.cur ∧ s.NextCallsOk 906 ∧
      (t.trace = s.trace ++ frame t.cur ∨ t.trace = s.trace ++ frame t.cur ++ [.rel])

/-- R3, R33, R43: the events a step that is no reset can append, and the commands that append any. -/
def Obligations.LineOutputOnlyFromFourSources : Prop :=
  ∀ s t : State, s.NoResetNext → step s = .next t →
    ∃ es, t.trace = s.trace ++ es ∧
      (es ≠ [] →
        (∃ w rest, s.inputs = .command w :: rest ∧ decode w = .ok .setup ∧
          es <+: [.cfg Config.setupOrder.first, .cfg Config.setupOrder.second]) ∨
        (∃ w rest, s.inputs = .command w :: rest ∧ decode w = .ok .showCmd ∧ es <+: frame s.cur) ∨
        (((∃ w rest, s.inputs = .command w :: rest ∧ decode w = .ok .close) ∨
            (∃ rest, s.inputs = .interrupt :: rest ∧ s.coeArmed = true)) ∧
          (es = [.rel] ∨ es <+: frame (s.cur.setAllColours 0 0 0) ++ [.rel])))

/-- R27 to R29, R121: the state after reset meets the invariant, whatever will be presented and whatever will
fail. -/
def Obligations.StartMeetsInvariant : Prop :=
  ∀ (inputs : List Input) (failing : List Nat), (State.start inputs failing).Inv

/-- R30 and the driver's contract: every step keeps the invariant, from every state that meets it. -/
def Obligations.StepKeepsInvariant : Prop := ∀ s t : State, s.Inv → step s = .next t → t.Inv

/-- R30: every state of every run meets the invariant, for every command stream, every interrupt and reset in it
and every oracle. -/
def Obligations.RunsMeetInvariant : Prop :=
  ∀ (inputs : List Input) (failing : List Nat) (n : Nat) (t : State),
    Sys2Proof.core.run n (State.start inputs failing) = .next t → t.Inv

/-! ### Decimal operands of the assembler text (30_encoding.md R59) -/

/-- R59: a brightness literal is the binary64 nearest to the decimal number written, or the raw pattern. R59 names no
rule for ties: that the even pattern is taken, like the sign of a negative zero and the infinity of a number too
large, is the model's choice (log entry 14). -/
def Obligations.DecimalOperandIsNearest : Prop :=
  (∀ n : Nat, NearestBinary64 false n (literalBrightness (.dec n))) ∧
  (∀ (negative : Bool) (digits places : Nat),
    NearestBinary64 negative (digits / 10 ^ places) (literalBrightness (.real negative digits places))) ∧
  (∀ digits n : Nat, n < 2 ^ 64 → (literalBrightness (.hex digits n)).toNat = n)
end

