-- ==== Sys2Proof/Tests/Slice0.lean ====
section
/-! SUPPORT. The model's own tests, their expected values from 95_test_vectors.md and the rules, and for each
statement with hypotheses a concrete case that meets them all. -/

namespace Sys2Proof.Tests

open Sys2Proof Sys2Proof.Machine

/-! ### States -/

/-- A line right after SETUP: configured, no level. -/
def upLine : LineState := { configured := true, level := none }

/-- "Ready-reset" of 95_test_vectors.md, with `SETUP_ORDER = (DAT, CLK)`. -/
def readyState : State :=
  { State.reset with mode := .ready, clk := upLine, dat := upLine, trace := [.cfg .dat, .cfg .clk] }

/-- Ready-reset after `SETPIXEL 7, 1, 1, 1` (C3). -/
def litState : State := { readyState with cur := readyState.cur.setColour 7 1 1 1 }

/-- Ready-reset after `SETCOE 1` (C12). -/
def armedState : State := { readyState with coeArmed := true }

/-- Ready-reset after CLOSE (C6). -/
def closedState : State :=
  { State.reset with mode := .closed, clk := LineState.reset, dat := LineState.reset,
                     trace := [.cfg .dat, .cfg .clk, .rel] }

/-- After the fault X1. -/
def haltedState : State := { readyState with halt := .fatal (.invalidBrightness 0x3FF8000000000000) }

/-- The state an outcome leaves, the state before it where there is none. -/
def after (o : Host.Outcome State Fault Refusal) (s : State) : State :=
  match o with
  | .next t => t
  | .fault _ => s
  | .refused _ => s

/-- The refusal an outcome is. -/
def refusalOf (o : Host.Outcome State Fault Refusal) : Option Refusal :=
  match o with
  | .next _ => none
  | .fault _ => none
  | .refused r => some r

/-! ### Well-formedness: one ill-formed term for each check -/

theorem test_bundle_reserved_refused : checkBundle 0xA00000000000000000000000 = .error .reservedOpcode := by rfl
theorem test_bundle_unused_bit_refused : checkBundle 0x700000000000000000000001 = .error .unusedBitSet := by rfl
theorem test_bundle_canonical : checkBundle 0x230102030000000000000000 = .ok () := by rfl
theorem test_source_unknown_mnemonic : checkSource ⟨"BLINK", []⟩ = .error .unknownMnemonic := by decide
theorem test_source_operand_count : checkSource ⟨"SETALL", [.dec 1]⟩ = .error .operandCount := by decide
theorem test_source_index_range :
    checkSource ⟨"SETPIXEL", [.dec 16, .dec 0, .dec 0, .dec 0]⟩ = .error .indexRange := by decide
theorem test_source_colour_range : checkSource ⟨"SETALL", [.dec 0, .dec 256, .dec 0]⟩ = .error .colourRange := by decide
theorem test_source_brightness_form : checkSource ⟨"SETBRT", [.hex 2 0x12]⟩ = .error .brightnessForm := by decide
theorem test_source_enable_range : checkSource ⟨"SETCOE", [.dec 2]⟩ = .error .enableRange := by decide

/-! ### Decoding: bundles written out from the field table of R47 -/

/-- `op` 0001, every other bit 0. -/
theorem test_decode_setup : decode (0b0001#4 ++ 0#92) = .ok .setup := by rfl
/-- `op` 0010, `idx` 0011, `r` 1, `g` 2, `b` 3, and a `v` field that format PC ignores (S12). -/
theorem test_decode_setPixel : decode
    (0b0010#4 ++ 0b0011#4 ++ 0b00000001#8 ++ 0b00000010#8 ++ 0b00000011#8 ++ 0x00000000DEADBEEF#64)
    = .ok (.setPixel 3 1 2 3) := by rfl
/-- D-3: `idx` = 0xF is ignored in format C. -/
theorem test_decode_setAll : decode (0b0011#4 ++ 0b1111#4 ++ 0x0A#8 ++ 0x14#8 ++ 0x1E#8 ++ 0#64)
    = .ok (.setAll 10 20 30) := by rfl
/-- `op` 0100, `v` the pattern of 1.0: sign 0, exponent 01111111111, fraction 0. -/
theorem test_decode_setBrt : decode (0b0100#4 ++ 0#28 ++ 0b0#1 ++ 0b01111111111#11 ++ 0#52)
    = .ok (.setBrt 0x3FF0000000000000) := by rfl
/-- S5: `op` 0101, `idx` 5, `v` = 0.25. -/
theorem test_decode_setPixBrt : decode 0x550000003FD0000000000000 = .ok (.setPixBrt 5 0x3FD0000000000000) := by rfl
theorem test_decode_clear : decode (0b0110#4 ++ 0#92) = .ok .clear := by rfl
/-- D-5: everything but `op` is ignored in format N. -/
theorem test_decode_showCmd : decode 0x7FFFFFFFFFFFFFFFFFFFFFFF = .ok .showCmd := by rfl
theorem test_decode_close : decode (0b1000#4 ++ 0#92) = .ok .close := by rfl
/-- D-6: `en` is bit 64, the lowest of the `b` field. -/
theorem test_decode_setCoe : decode (0b1001#4 ++ 0#27 ++ 0b1#1 ++ 0#64) = .ok (.setCoe true) := by rfl
/-- D-7: bits 71 to 65 are ignored. -/
theorem test_decode_setCoe_off : decode 0x900000FE0000000000000000 = .ok (.setCoe false) := by rfl
/-- D-8, D-9. -/
theorem test_decode_reserved : decode 0 = .error (.reservedOpcode 0) ∧
    decode 0xF00000000000000000000000 = .error (.reservedOpcode 0xF) := by decide
theorem test_table_word : decodeTableWord 96 0x230102030000000000000000 = some (.setPixel 3 1 2 3) := by decide

/-! ### The brightness conversion: vectors B1 to B23 -/

/-- B1 to B15: pattern and converted value. -/
theorem test_convert_vectors :
    ([0x0000000000000000, 0x3FF0000000000000, 0x3FE0000000000000, 0x3FB999999999999A, 0x3FD0000000000000,
      0x3FDEB851EB851EB8, 0x3FDEF9DB22D0E560, 0x3FEFAE147AE147AE, 0x3FEFFFFFFFFFFFFF, 0x8000000000000000,
      0x0000000000000001, 0x3FDEF7BDEF7BDEF8, 0x3FE0842108421084, 0x3FA0842108421084,
      0x3FA0842108421083] : List Binary64).map (fun v => (inUnit v, (convert v).toNat)) =
    [(true, 0), (true, 31), (true, 15), (true, 3), (true, 7), (true, 14), (true, 15), (true, 30), (true, 30),
     (true, 0), (true, 0), (true, 15), (true, 16), (true, 1), (true, 0)] := by decide

/-- B16 to B23: outside the unit interval. -/
theorem test_inUnit_outside :
    ([0x3FF0000000000001, 0x3FF8000000000000, 0xBFF0000000000000, 0x81A56E1FC2F8F359, 0x7FF0000000000000,
      0xFFF0000000000000, 0x7FF8000000000000, 0x7FF0000000000001] : List Binary64).map inUnit =
    List.replicate 8 false := by decide

/-! ### The frame: vectors E3 and V1 -/

theorem test_byte_A5 : sampled (sendByte 0xA5) =
    [true, false, true, false, false, true, false, true].map some ∧ (sendByte 0xA5).length = 24 := by decide

/-- V1: the whole frame of `cur[0] = (255, 0, 128, 31)`, the other pixels as after reset. -/
theorem test_frame_V1 :
    sampled (frame ((State.reset.cur.setColour 0 255 0 128).setBrt 0 31)) =
      (List.range 324).map fun j => some
        ((0x00000000FF8000FFEF000000EF000000EF000000EF000000EF000000EF000000EF000000000000000 : BitVec 324).getLsbD
          (323 - j)) := by decide +kernel

/-! ### One step of each command -/

/-- C1: two calls, no write; mode Ready. -/
theorem test_setup_ready :
    (after (exec .setup State.reset) State.reset).mode = .ready ∧
    (after (exec .setup State.reset) State.reset).trace.length = 2 := by decide
/-- X6: the second call fails. -/
theorem test_setup_fails :
    (after (exec .setup { State.reset with failing := [1] }) State.reset).halt = .fatal (.ioFailure 1) := by decide
/-- S10. -/
theorem test_setPixel_last :
    (after (exec (.setPixel 7 255 255 255) readyState) readyState).cur.p7 = ⟨255, 255, 255, 15⟩ := by decide
/-- X2. -/
theorem test_setPixel_index :
    exec (.setPixel 8 1 1 1) readyState = .next { readyState with halt := .fatal (.indexOutOfRange 8) } := by rfl
/-- S3. -/
theorem test_setAll :
    (after (exec (.setAll 10 20 30) readyState) readyState).cur = Strip.all ⟨10, 20, 30, 15⟩ := by decide
/-- S4. -/
theorem test_setBrt_one :
    (after (exec (.setBrt 0x3FF0000000000000) readyState) readyState).cur = Strip.all ⟨0, 0, 0, 31⟩ := by decide
/-- X1: not clamped. -/
theorem test_setBrt_fault :
    (after (exec (.setBrt 0x3FF8000000000000) readyState) readyState).halt =
      .fatal (.invalidBrightness 0x3FF8000000000000) := by decide
/-- S5. -/
theorem test_setPixBrt :
    (after (exec (.setPixBrt 5 0x3FD0000000000000) readyState) readyState).cur =
      { Strip.all ⟨0, 0, 0, 15⟩ with p5 := ⟨0, 0, 0, 7⟩ } := by decide
/-- X3: the brightness is checked before the index. -/
theorem test_setPixBrt_order :
    (after (exec (.setPixBrt 9 0x4000000000000000) readyState) readyState).halt =
      .fatal (.invalidBrightness 0x4000000000000000) := by decide
/-- S9: the brightness stays. -/
theorem test_clear :
    (after (exec .clear { readyState with cur := Strip.all ⟨1, 2, 3, 3⟩ }) readyState).cur =
      Strip.all ⟨0, 0, 0, 3⟩ := by decide
/-- C2: nothing sent by a fresh strip. -/
theorem test_show_fresh : exec .showCmd readyState = .next readyState := by rfl
/-- X5: the frame is cut at trace position 100, a `wr(DAT, 0)`. -/
theorem test_show_cut :
    let s : State := { readyState with cur := (readyState.cur.setColour 0 255 0 128).setBrt 0 31, failing := [100] }
    (after (exec .showCmd s) s).halt = .fatal (.ioFailure 100) ∧
    (after (exec .showCmd s) s).trace.getLast? = some (.wr .dat false) ∧
    (after (exec .showCmd s) s).prev = s.prev := by decide +kernel
/-- C6. -/
theorem test_close_fresh :
    exec .close readyState = .next { readyState with mode := .closed, clk := LineState.reset, dat := LineState.reset,
                                                     trace := [.cfg .dat, .cfg .clk, .rel] } := by rfl
/-- C8: a second CLOSE appends one release. -/
theorem test_close_twice :
    (after (exec .close closedState) closedState).trace = [.cfg .dat, .cfg .clk, .rel, .rel] := by decide
/-- C12, C13. -/
theorem test_setCoe : (after (exec (.setCoe true) readyState) readyState).coeArmed = true ∧
    (after (exec (.setCoe false) armedState) armedState).coeArmed = true := by decide
/-- C14: the mode check precedes the operand check. -/
theorem test_refused_before_operands :
    refusalOf (exec (.setBrt 0x3FF8000000000000) State.reset) = some (.invalidMode .uninitialized) := by decide
/-- I2. -/
theorem test_interrupt_armed :
    let t := after (step { armedState with inputs := [.interrupt] }) armedState
    t.mode = .closed ∧ t.trace = [.cfg .dat, .cfg .clk, .rel] ∧ t.exitStatus = some Config.exitInt.val := ⟨rfl, rfl, rfl⟩
/-- I4. -/
theorem test_interrupt_unarmed :
    refusalOf (step { readyState with inputs := [.interrupt] }) = some .unarmedInterrupt := by decide
/-- A presented word is what the next step runs. -/
theorem test_withFetchWord :
    (after (step (State.withFetchWord readyState 96 0x300A141E0000000000000000)) readyState).cur =
      Strip.all ⟨10, 20, 30, 15⟩ := by decide
/-- P1 of 95_test_vectors.md, in part, and V4's `-0.0` as text. -/
theorem test_assemble :
    assemble "SETPIXEL 0, 255, 0x00, 128 ; red\n\n SETPIXBRT 5, 0.25\nSETBRT -0.0\n<INT>\nSHOW" =
      .ok [.command 0x20FF00800000000000000000, .command 0x550000003FD0000000000000,
           .command 0x400000008000000000000000, .interrupt, .command 0x700000000000000000000000] := by decide +kernel
/-- B4 and B8 as text: the nearest binary64. -/
theorem test_nearest : nearestMagnitude 1 10 = 0x3FB999999999999A ∧ nearestMagnitude 99 100 = 0x3FEFAE147AE147AE := by
  decide

/-! ### Witnesses: the hypotheses of each statement can be met -/

theorem ready_running : readyState.RunningIn .ready := ⟨rfl, rfl⟩
theorem ready_lines : readyState.LinesConfigured := ⟨rfl, rfl⟩
theorem ready_calls_ok (n : Nat) : readyState.NextCallsOk n := by intro k _; exact List.not_mem_nil
theorem lit_running : litState.RunningIn .ready := ⟨rfl, rfl⟩
theorem lit_lines : litState.LinesConfigured := ⟨rfl, rfl⟩
theorem lit_changed : litState.cur ≠ litState.prev := by decide
theorem lit_calls_ok (n : Nat) : litState.NextCallsOk n := by intro k _; exact List.not_mem_nil

/-- A pixel of `prev` that is not the blackened one of `cur`. -/
theorem bright_differs : ∃ i, ({ litState with cur := Strip.all ⟨1, 2, 3, 4⟩ } : State).prev.get i ≠
    { ({ litState with cur := Strip.all ⟨1, 2, 3, 4⟩ } : State).cur.get i with R := 0, G := 0, B := 0 } :=
  ⟨0, by decide⟩

theorem closed_inv : closedState.Inv where
  closed_is_flushed_black _ _ := ⟨rfl, by intro i; unfold Pixel.Black; revert i; decide⟩
  armed_not_uninitialized h := by cases h
  uninitialized_pixels h := by cases h
  uninitialized_trace h := by cases h
  uninitialized_running_trace h := by cases h
  configured_iff_ready _ l := by cases l <;> rfl
  level_is_last_write _ l := by cases l <;> rfl
  lines_rest_low _ := .inl fun l => by cases l <;> rfl
  prev_is_last_frame := ⟨closedState.trace, [], by simp, .inl ⟨rfl, by decide⟩, fun h => absurd rfl h⟩
  no_past_failure _ n h := by cases h
  io_failure_is_last n h := by cases h
  recorded_brightness_is_bad v h := by cases h
  recorded_index_is_bad i h := by cases h
  exited_is_closed n h := by cases h

theorem witness_EncodeOfDecode : decode 0x7FFFFFFFFFFFFFFFFFFFFFFF = .ok .showCmd := by rfl
theorem witness_UnusedBitsIgnored : decode 0x700000000000000000000000 = .ok .showCmd ∧
    (0x0FFFFFFFFFFFFFFFFFFFFFFF : Bundle) &&& Instr.showCmd.format.usedBits = 0 := ⟨rfl, rfl⟩
theorem witness_CheckedLineNamesCommand :
    checkSource ⟨"SETPIXEL", [.hex 1 15, .dec 255, .dec 0, .hex 2 255]⟩ = .ok () ∧
    checkSource ⟨"SETBRT", [.hex 16 0x3FF0000000000000]⟩ = .ok () ∧
    checkSource ⟨"SETPIXBRT", [.dec 0, .real true 5 1]⟩ = .ok () ∧ checkSource ⟨"SETCOE", [.dec 1]⟩ = .ok () := by decide
/-- The literals of 40_pixel_store.md R63: the shortest decimal of the first operand of the table. -/
theorem test_shortest_decimal : literalBrightness (.real false 3225806451612903 17) = 0x3FA0842108421084 := by decide
theorem witness_DecimalOperandIsNearest : 2 ^ 64 - 1 < 2 ^ 64 := by decide
theorem witness_StepRunsDecodedCommand :
    ({ readyState with inputs := [.command 0x600000000000000000000000] } : State).inputs =
      [.command 0x600000000000000000000000] ∧ decode 0x600000000000000000000000 = .ok .clear := ⟨rfl, rfl⟩
theorem witness_ReservedOpcodeRefused_zero :
    let s : State := { readyState with inputs := [.command 0] }
    s.halt = .running ∧ s.inputs = [.command 0] ∧ opField 0 = 0 := ⟨rfl, rfl, rfl⟩
theorem witness_ReservedOpcodeRefused_high :
    let s : State := { readyState with inputs := [.command 0xA00000000000000000000000] }
    s.halt = .running ∧ s.inputs = [.command 0xA00000000000000000000000] ∧
      0xA ≤ opField 0xA00000000000000000000000 := ⟨rfl, rfl, by decide⟩
theorem witness_IdleChangesNothing : State.reset.inputs = [] := rfl
theorem witness_ResetLeavesPixels : ({ litState with inputs := [.reset [3]] } : State).inputs = [.reset [3]] := rfl
theorem witness_ResetLeavesControl : ({ haltedState with inputs := [.reset []] } : State).inputs = [.reset []] := rfl
theorem witness_ResetStartsNewRun :
    ({ haltedState with inputs := [.reset [0], .interrupt] } : State).inputs = .reset [0] :: [.interrupt] := rfl
theorem witness_SetupConfiguresBothLines :
    State.reset.RunningIn .uninitialized ∧ State.reset.NextCallsOk 2 :=
  ⟨⟨rfl, rfl⟩, by intro k _; exact List.not_mem_nil⟩
theorem witness_SetupFailureHalts_first :
    let s : State := { State.reset with failing := [0] }
    0 < 2 ∧ s.RunningIn .uninitialized ∧ s.NextCallsOk 0 ∧ s.trace.length + 0 ∈ s.failing :=
  ⟨by decide, ⟨rfl, rfl⟩, by intro k hk; omega, by decide⟩
theorem witness_SetupFailureHalts_second :
    let s : State := { State.reset with failing := [1] }
    1 < 2 ∧ s.RunningIn .uninitialized ∧ s.NextCallsOk 1 ∧ s.trace.length + 1 ∈ s.failing :=
  ⟨by decide, ⟨rfl, rfl⟩, by unfold State.NextCallsOk; decide, by decide⟩
theorem witness_SetPixelWritesColour : readyState.RunningIn .ready ∧ (7 : BitVec 4).toNat = (7 : Fin 8).val :=
  ⟨ready_running, rfl⟩
theorem witness_SetPixelIndexFault : readyState.RunningIn .ready ∧ 8 ≤ (8 : BitVec 4).toNat :=
  ⟨ready_running, by decide⟩
theorem witness_SetAllWritesEveryColour : readyState.RunningIn .ready := ready_running
theorem witness_SetBrtWritesEveryBrightness : readyState.RunningIn .ready ∧ inUnit 0x3FF0000000000000 = true :=
  ⟨ready_running, by decide⟩
theorem witness_SetBrtOutsideUnitFault : readyState.RunningIn .ready ∧ inUnit 0x3FF0000000000001 = false :=
  ⟨ready_running, by decide⟩
theorem witness_SetPixBrtWritesBrightness :
    readyState.RunningIn .ready ∧ (0 : BitVec 4).toNat = (0 : Fin 8).val ∧ inUnit 0x8000000000000000 = true :=
  ⟨ready_running, rfl, by decide⟩
theorem witness_SetPixBrtFaults_brightness : readyState.RunningIn .ready ∧ inUnit 0x3FF0000000000001 = false :=
  ⟨ready_running, by decide⟩
theorem witness_SetPixBrtFaults_index :
    readyState.RunningIn .ready ∧ inUnit 0x3FF0000000000000 = true ∧ 8 ≤ (8 : BitVec 4).toNat :=
  ⟨ready_running, by decide, by decide⟩
theorem witness_ClearBlackens : litState.RunningIn .ready := lit_running
theorem witness_SettersDoNoOutput_completes : ∃ t, exec .clear litState = .next t ∧ t.halt = .running := ⟨_, rfl, rfl⟩
theorem witness_SettersDoNoOutput_faults : ∃ t, exec (.setPixel 8 1 1 1) litState = .next t ∧ t.halt ≠ litState.halt :=
  ⟨_, rfl, by decide⟩
theorem witness_BrightnessWrittenByBrightnessCommands :
    (∀ v, Instr.clear ≠ .setBrt v) ∧ (∀ idx v, Instr.clear ≠ .setPixBrt idx v) ∧ ∃ t, exec .clear litState = .next t :=
  ⟨fun _ => by simp, fun _ _ => by simp, _, rfl⟩
theorem witness_CommandEquivalences :
    readyState.RunningIn .ready ∧ ∀ i : Fin 8, i ∈ ([7, 0, 1, 6, 2, 2, 5, 3, 4] : List (Fin 8)) :=
  ⟨ready_running, by decide⟩
theorem half_value : binValue? 0x3FE0000000000000 = some (1 / 2) := by
  have hs : binSig 0x3FE0000000000000 = 2 ^ 52 := by decide
  have he : binExp 0x3FE0000000000000 = 1022 := by decide
  have hn : binSign 0x3FE0000000000000 = false := by decide
  rw [binValue?, hs, he, hn]
  norm_num
theorem tiny_value : binValue? 0 = some 0 := by
  have hs : binSig 0 = 0 := by decide
  have he : binExp 0 = 0 := by decide
  rw [binValue?, hs, he]
  norm_num
theorem witness_ConvertRange : inUnit 0x3FE0000000000000 = true ∧ binValue? 0x3FE0000000000000 = some (1 / 2) :=
  ⟨by decide, half_value⟩
theorem witness_ConvertRange_zero : inUnit 0 = true ∧ binValue? 0 = some 0 ∧ (0 : ℚ) < 1 / 31 ∧
    (0 : Binary64) ≠ 0x3FA0842108421084 := ⟨by decide, tiny_value, by norm_num, by decide⟩
theorem witness_ConvertMonotone : inUnit 0 = true ∧ inUnit 0x3FE0000000000000 = true ∧ binValue? 0 = some 0 ∧
    binValue? 0x3FE0000000000000 = some (1 / 2) ∧ (0 : ℚ) ≤ 1 / 2 :=
  ⟨by decide, by decide, tiny_value, half_value, by norm_num⟩
theorem witness_ConvertIsFloorButNineteen_floor :
    inUnit 0x3FE0000000000000 = true ∧ binValue? 0x3FE0000000000000 = some (1 / 2) ∧
      ∀ k, ((0x3FE0000000000000 : Binary64), k) ∉ splitOperands :=
  ⟨by decide, half_value, by intro k; simp [splitOperands]⟩
theorem witness_ConvertIsFloorButNineteen_table : ((0x3FE0842108421084 : Binary64), 16) ∈ splitOperands := by decide
theorem witness_FrameDeterminesPixels : frame Strip.reset = frame Strip.reset := rfl
theorem witness_DriverCallEffects :
    readyState.trace.length ∉ readyState.failing ∧ (readyState.line .dat).configured = true := ⟨by decide, rfl⟩
theorem witness_FailedCallOldOrNew_wr :
    let s : State := { readyState with failing := [2] }
    s.trace.length ∈ s.failing ∧ ∀ l b, Event.wr .clk true = .wr l b → (s.line l).configured = true :=
  ⟨by decide, by intro l b h; cases h; rfl⟩
/-- The first call of a SETUP, and the release of a second CLOSE: no line is configured. -/
theorem witness_FailedCallOldOrNew_cfg_rel :
    (let s : State := { State.reset with failing := [0] }
     s.trace.length ∈ s.failing ∧ ∀ l b, Event.cfg .clk = .wr l b → (s.line l).configured = true) ∧
    (let s : State := { closedState with failing := [closedState.trace.length] }
     s.trace.length ∈ s.failing ∧ ∀ l b, Event.rel = .wr l b → (s.line l).configured = true) :=
  ⟨⟨by decide, by intro l b h; cases h⟩, by decide, by intro l b h; cases h⟩
theorem witness_ShowUnchangedDoesNothing : readyState.RunningIn .ready ∧ readyState.cur = readyState.prev :=
  ⟨ready_running, rfl⟩
theorem witness_ShowSendsFrameAndCommits : litState.RunningIn .ready ∧ litState.cur ≠ litState.prev ∧
    litState.LinesConfigured ∧ litState.NextCallsOk 906 := ⟨lit_running, lit_changed, lit_lines, lit_calls_ok 906⟩
/-- The first and the last write of the frame. -/
theorem witness_ShowFailureCutsFrame :
    (let s : State := { litState with failing := [2] }
     s.RunningIn .ready ∧ s.cur ≠ s.prev ∧ s.LinesConfigured ∧ 0 < 906 ∧ s.NextCallsOk 0 ∧
       s.trace.length + 0 ∈ s.failing) ∧
    (let s : State := { litState with failing := [907] }
     s.RunningIn .ready ∧ s.cur ≠ s.prev ∧ s.LinesConfigured ∧ 905 < 906 ∧ s.NextCallsOk 905 ∧
       s.trace.length + 905 ∈ s.failing) := by
  refine ⟨⟨⟨rfl, rfl⟩, by decide, ⟨rfl, rfl⟩, by decide, ?_, by decide⟩,
    ⟨⟨rfl, rfl⟩, by decide, ⟨rfl, rfl⟩, by decide, ?_, by decide⟩⟩
  · intro k hk; omega
  · intro k hk h
    have : 2 + k = 907 := by simpa [litState, readyState] using h
    omega
theorem witness_CloseWithoutFrame : readyState.RunningIn .ready ∧ readyState.NextCallsOk 1 ∧
    ∀ i, readyState.prev.get i = { readyState.cur.get i with R := 0, G := 0, B := 0 } :=
  ⟨ready_running, ready_calls_ok 1, by decide⟩
theorem witness_CloseSendsBlackFrame :
    let s : State := { litState with cur := Strip.all ⟨1, 2, 3, 4⟩ }
    s.RunningIn .ready ∧ s.LinesConfigured ∧ s.NextCallsOk 907 ∧
      ∃ i, s.prev.get i ≠ { s.cur.get i with R := 0, G := 0, B := 0 } :=
  ⟨⟨rfl, rfl⟩, ⟨rfl, rfl⟩, by intro k _; exact List.not_mem_nil, bright_differs⟩
theorem witness_CloseFailureInFrame :
    let s : State := { litState with cur := Strip.all ⟨1, 2, 3, 4⟩, failing := [2] }
    s.RunningIn .ready ∧ s.LinesConfigured ∧ 0 < 906 ∧ s.NextCallsOk 0 ∧ s.trace.length + 0 ∈ s.failing ∧
      ∃ i, s.prev.get i ≠ { s.cur.get i with R := 0, G := 0, B := 0 } :=
  ⟨⟨rfl, rfl⟩, ⟨rfl, rfl⟩, by decide, by intro k hk; omega, by decide, bright_differs⟩
theorem witness_CloseFailureAtRelease_noFrame :
    let s : State := { readyState with failing := [2] }
    s.RunningIn .ready ∧ (∀ i, s.prev.get i = { s.cur.get i with R := 0, G := 0, B := 0 }) ∧
      s.trace.length ∈ s.failing := ⟨⟨rfl, rfl⟩, by decide, by decide⟩
theorem witness_CloseFailureAtRelease_frame :
    let s : State := { litState with cur := Strip.all ⟨1, 2, 3, 4⟩, failing := [908] }
    s.RunningIn .ready ∧ (∃ i, s.prev.get i ≠ { s.cur.get i with R := 0, G := 0, B := 0 }) ∧ s.LinesConfigured ∧
      s.NextCallsOk 906 ∧ s.trace.length + 906 ∈ s.failing := by
  refine ⟨⟨rfl, rfl⟩, bright_differs, ⟨rfl, rfl⟩, ?_, by decide⟩
  intro k hk h
  have : 2 + k = 908 := by simpa [litState, readyState] using h
  omega
theorem witness_SecondCloseOnlyReleases : closedState.Inv ∧ closedState.RunningIn .closed ∧ closedState.NextCallsOk 1 :=
  ⟨closed_inv, ⟨rfl, rfl⟩, by intro k _; exact List.not_mem_nil⟩
/-- The second release is the call that fails. -/
theorem witness_SecondCloseOnlyReleases_fault :
    let s : State := { closedState with failing := [closedState.trace.length] }
    s.Inv ∧ s.RunningIn .closed ∧ s.trace.length ∈ s.failing :=
  ⟨{ closed_inv with
      configured_iff_ready := fun _ l => by cases l <;> rfl
      level_is_last_write := fun _ l => by cases l <;> rfl
      lines_rest_low := fun _ => .inl fun l => by cases l <;> rfl
      no_past_failure := by decide
      io_failure_is_last := by intro n h; cases h }, ⟨rfl, rfl⟩, by decide⟩
theorem witness_SetCoeArms : readyState.RunningIn .ready := ready_running
theorem witness_ArmedInterruptClosesAndExits :
    let s : State := { armedState with inputs := [.interrupt] }
    s.inputs = [.interrupt] ∧ s.halt = .running ∧ s.coeArmed = true ∧
      ∃ u, exec .close { s with inputs := [] } = .next u ∧ u.halt = .running := ⟨rfl, rfl, rfl, _, rfl, rfl⟩
/-- The release of the interrupt-driven close fails (R116). -/
theorem witness_ArmedInterruptClosesAndExits_fault :
    let s : State := { armedState with inputs := [.interrupt], failing := [2] }
    s.inputs = [.interrupt] ∧ s.halt = .running ∧ s.coeArmed = true ∧
      ∃ u, exec .close { s with inputs := [] } = .next u ∧ u.halt ≠ .running := ⟨rfl, rfl, rfl, _, rfl, by decide⟩
theorem witness_UnarmedOrHaltedInterrupt :
    (let s : State := { readyState with inputs := [.interrupt] }
     s.inputs = [.interrupt] ∧ s.halt = .running ∧ s.coeArmed = false) ∧
    (let s : State := { haltedState with inputs := [.interrupt] }
     s.inputs = [.interrupt] ∧ s.halt ≠ .running) := ⟨⟨rfl, rfl, rfl⟩, rfl, by decide⟩
theorem witness_RefusedExactlyInWrongMode :
    State.reset.halt = .running ∧ modeTakes .showCmd State.reset.mode = false ∧
      modeTakes .setup State.reset.mode = true := ⟨rfl, rfl, rfl⟩
theorem witness_TakenCommandsNeverRefused : closedState.Inv ∧ modeTakes .close closedState.mode = true := ⟨closed_inv, rfl⟩
theorem witness_HaltIsSticky :
    ({ haltedState with inputs := [.command 0x700000000000000000000000] } : State).Halted ∧
    ({ haltedState with inputs := [.command 0x700000000000000000000000] } : State).NoResetNext :=
  ⟨by unfold State.Halted; decide, by intro _ _ h; cases h⟩
/-- A step that is no reset and moves the mode, for ModeTransitions and LineOutputOnlyFromFourSources. -/
theorem witness_ModeTransitions :
    let s : State := { readyState with inputs := [.command 0x800000000000000000000000] }
    s.NoResetNext ∧ ∃ t, step s = .next t ∧ t.mode = .closed ∧ t.trace ≠ s.trace :=
  ⟨(by intro _ _ h; cases h), _, rfl, rfl, by decide⟩
theorem witness_CoeArmedOnlySet :
    let s : State := { readyState with inputs := [.command 0x900000010000000000000000] }
    s.NoResetNext ∧ ∃ t, step s = .next t ∧ t.coeArmed ≠ s.coeArmed :=
  ⟨(by intro _ _ h; cases h), _, rfl, by decide⟩
/-- A SHOW of a changed strip writes `prev`. -/
theorem witness_PrevWrittenOnlyByFlush :
    let s : State := { litState with inputs := [.command 0x700000000000000000000000] }
    s.NoResetNext ∧ ∃ t, step s = .next t ∧ t.prev ≠ s.prev := by
  refine ⟨(by intro _ _ h; cases h), commit (callsOk (frame litState.cur) litState), ?_, lit_changed⟩
  have h : step { litState with inputs := [.command 0x700000000000000000000000] } = (showBody litState).outcome := rfl
  have hc : ∀ l, (litState.line l).configured = true := by intro l; cases l <;> rfl
  rw [h, showBody_ok lit_changed hc (fun k _ => lit_calls_ok (k + 1) k (Nat.lt_succ_self k)), Attempt.outcome_done]
theorem witness_LineOutputOnlyFromFourSources :
    let s : State := { readyState with inputs := [.command 0x800000000000000000000000] }
    s.NoResetNext ∧ ∃ t, step s = .next t ∧ t.trace = s.trace ++ [.rel] :=
  ⟨(by intro _ _ h; cases h), _, rfl, rfl⟩
theorem witness_StepKeepsInvariant : closedState.Inv ∧ step closedState = .next closedState := ⟨closed_inv, rfl⟩
theorem witness_RunsMeetInvariant :
    ∃ t, Sys2Proof.core.run 1 (State.start [.command 0x100000000000000000000000] []) = .next t ∧ t.mode = .ready :=
  ⟨_, rfl, rfl⟩

end Sys2Proof.Tests
end

-- Proofs of the state family (10_state.md): reset, and what may write `prev`.
section
/-! PROOFS. 10_state.md R19 and R27: what the reset input leaves, and that only a frame whose every call was ok
writes `prev`. -/

namespace Sys2Proof.Machine

/-! ### The input a step takes -/

/-- The reset input is the reset, once it has been taken (R120). -/
theorem step_reset {s : State} {failing : List Nat} {rest : List Input} (h : s.inputs = .reset failing :: rest) :
    step s = .next (resetTo failing (s.withInputs rest)) := by
  simp [step, takeInput_cons h]

/-- All that a step can be, when the next input is not the reset. -/
theorem step_next_cases {s t : State} (hr : s.NoResetNext) (h : step s = .next t) :
    (s.inputs = [] ∧ t = s) ∨
    (∃ rest, s.inputs = .interrupt :: rest ∧ takeInterrupt (s.withInputs rest) = .next t) ∨
    (∃ w rest i, s.inputs = .command w :: rest ∧ decode w = .ok i ∧ exec i (s.withInputs rest) = .next t) ∨
    (∃ w rest e, s.inputs = .command w :: rest ∧ decode w = .error e ∧
      rejectBundle e (s.withInputs rest) = .next t) := by
  cases hi : s.inputs with
  | nil =>
    simp only [step, takeInput_nil hi, Host.Outcome.next.injEq] at h
    exact .inl ⟨rfl, h.symm⟩
  | cons input rest =>
    simp only [step, takeInput_cons hi] at h
    cases input with
    | reset failing => exact absurd hi (hr failing rest)
    | interrupt => exact .inr (.inl ⟨rest, rfl, h⟩)
    | command w =>
      cases hd : decode w with
      | ok i => simp only [hd] at h; exact .inr (.inr (.inl ⟨w, rest, i, rfl, hd, h⟩))
      | error e => simp only [hd] at h; exact .inr (.inr (.inr ⟨w, rest, e, rfl, hd, h⟩))

/-- A rejected bundle leaves a next state only in a halted block, and then changes nothing (R55). -/
theorem rejectBundle_next {e : DecodeError} {s t : State} (h : rejectBundle e s = .next t) :
    s.halt ≠ .running ∧ t = s := by
  cases e with
  | reservedOpcode op => cases hh : s.halt <;> simp_all [rejectBundle]

/-- All that the interrupt can do: nothing to a halted block, else the close, which faults or ends in `Exited`
(R111, R113 (c), R116). -/
theorem takeInterrupt_next {s t : State} (h : takeInterrupt s = .next t) :
    (s.halt ≠ .running ∧ t = s) ∨ closeBody s = .raised t ∨
    ∃ u, closeBody s = .done u ∧ t = u.withHalt (.exited Config.exitInt.val) := by
  cases hh : s.halt with
  | fatal c => simp only [takeInterrupt, hh, Host.Outcome.next.injEq] at h; exact .inl ⟨by simp, h.symm⟩
  | exited n => simp only [takeInterrupt, hh, Host.Outcome.next.injEq] at h; exact .inl ⟨by simp, h.symm⟩
  | running =>
    simp only [takeInterrupt, hh] at h
    split_ifs at h
    refine .inr ?_
    cases hc : closeBody s with
    | done u => rw [hc] at h; exact .inr ⟨u, rfl, by simpa [exitAfter, eq_comm] using h⟩
    | raised u => rw [hc] at h; exact .inl (by simpa [exitAfter] using h)
    | refused r => rw [hc] at h; simp [exitAfter] at h

/-! ### The nine commands behind the one gate (R84) -/

/-- The pseudocode of SETUP (R85). -/
def setupBody (s : State) : Attempt :=
  (issueCalls (setupCalls Config.setupOrder) s).andThen fun t => .done (t.withMode .ready)

/-- The pseudocode of each command, as its arm of `exec` passes it to the gate (`exec_eq_accept`). -/
def commandBody : Instr → State → Attempt
  | .setup => setupBody
  | .setPixel idx r g b => withIndex idx fun i s => .done (s.withCur (s.cur.setColour i r g b))
  | .setAll r g b => fun s => .done (writeAllColours r g b s)
  | .setBrt v => withBrightness v fun n s => .done (s.withCur (s.cur.setAllBrts n))
  | .setPixBrt idx v => withBrightness v fun n => withIndex idx fun i s => .done (s.withCur (s.cur.setBrt i n))
  | .clear => fun s => .done (clearColours s)
  | .showCmd => showBody
  | .close => closeBody
  | .setCoe en => fun s => .done (if en then s.arm else s)

/-- The modes of R84's table are the ones each command's gate takes. -/
theorem modeTakes_eq (i : Instr) : modeTakes i =
    match i with
    | .setup => Mode.isUninitialized
    | .close => Mode.takesClose
    | _ => Mode.isReady := by
  funext m
  cases i <;> cases m <;> rfl

/-- Every command is its pseudocode behind the gate of R84's table. -/
theorem exec_eq_accept (i : Instr) (s : State) : exec i s = accept (modeTakes i) (commandBody i) s := by
  rw [modeTakes_eq]
  cases i <;> rfl

/-- All that a command can do: a halted block drops it; a running one runs its pseudocode, if the mode takes it. -/
theorem exec_next {i : Instr} {s t : State} (h : exec i s = .next t) :
    (s.halt ≠ .running ∧ t = s) ∨
    (s.halt = .running ∧ modeTakes i s.mode = true ∧ (commandBody i s = .done t ∨ commandBody i s = .raised t)) :=
  accept_next (exec_eq_accept i s ▸ h)

/-! ### Reset (R27) -/

@[simp] theorem State.line_resetTo (failing : List Nat) (s : State) (l : Line) :
    (resetTo failing s).line l = LineState.reset := by cases l <;> rfl

@[simp] theorem State.reset_cur : State.reset.cur = Strip.all Pixel.reset := rfl
@[simp] theorem State.reset_prev : State.reset.prev = Strip.all Pixel.reset := rfl

@[simp] theorem resetTo_changed (failing : List Nat) (s : State) : (resetTo failing s).changed = false := by
  simp [State.changed_eq_false_iff]

/-- Settles O10: the state after reset is written out in `resetTo`, whatever the state before. -/
theorem resetLeavesPixels : Obligations.ResetLeavesPixels := by
  intro s failing rest h
  refine ⟨_, step_reset h, resetTo_changed _ _, ⟨rfl, rfl, rfl, State.line_resetTo _ _⟩, fun i => ?_⟩
  rw [resetTo_cur, resetTo_prev, State.reset_cur, State.reset_prev, Strip.get_all]
  exact ⟨rfl, rfl, rfl, rfl, rfl⟩

/-! ### The length of a frame (R80) -/

theorem sendByte_length (x : Byte) : (sendByte x).length = 24 := by
  rw [sendByte, sendBits_length, byteBits_length]

theorem sendWord_length (p : Pixel) : (sendWord p).length = 96 := by
  simp only [sendWord, List.length_append, sendByte_length]

theorem sendWords_length (ps : List Pixel) : (sendWords ps).length = 96 * ps.length := by
  induction ps with
  | nil => rfl
  | cons p ps ih => rw [sendWords_cons, List.length_append, sendWord_length, ih, List.length_cons]; omega

theorem sof_length : sof.length = 65 := by rw [sof, List.length_cons, pulses_length, sofPulses]

theorem eof_length : eof.length = 73 := by rw [eof, List.length_cons, pulses_length, eofPulses]

theorem Strip.toList_length (c : Strip) : c.toList.length = 8 := rfl

theorem frame_length (c : Strip) : (frame c).length = 906 := by
  rw [frame, List.length_append, List.length_append, sof_length, eof_length, sendWords_length, Strip.toList_length]

/-! ### What may write `prev` (R19) -/

/-- From `s` to `t` one whole frame of ok calls was sent and committed, and at most a release came after it. -/
def Flushed (s t : State) : Prop :=
  t.prev = t.cur ∧ s.NextCallsOk 906 ∧
    (t.trace = s.trace ++ frame t.cur ∨ t.trace = s.trace ++ frame t.cur ++ [.rel])

/-- From `s` to `t` the shadow registers were left alone, or a frame was flushed. -/
def PrevKeptOrFlushed (s t : State) : Prop := t.prev = s.prev ∨ Flushed s t

/-- However the attempt ends, it keeps `prev` of `s` or flushes a frame. -/
def Attempt.KeepsPrevOrFlushes (a : Attempt) (s : State) : Prop :=
  ∀ t, a = .done t ∨ a = .raised t → PrevKeptOrFlushed s t

theorem Attempt.KeepsPrevOrFlushes.of_done {s t : State} (h : t.prev = s.prev) :
    (Attempt.done t).KeepsPrevOrFlushes s := by
  rintro u (hu | hu) <;> cases hu
  exact .inl h

theorem Attempt.KeepsPrevOrFlushes.of_raised {s t : State} (h : t.prev = s.prev) :
    (Attempt.raised t).KeepsPrevOrFlushes s := by
  rintro u (hu | hu) <;> cases hu
  exact .inl h

/-- The index check writes no `prev`. -/
theorem withIndex_prev (idx : BitVec 4) {k : Fin 8 → State → Attempt} {s : State}
    (hk : ∀ i, (k i s).KeepsPrevOrFlushes s) : (withIndex idx k s).KeepsPrevOrFlushes s := by
  rcases Nat.lt_or_ge idx.toNat 8 with hi | hi
  · rw [withIndex_ok hi]; exact hk _
  · rw [withIndex_bad hi]; exact .of_raised rfl

/-- The brightness check writes no `prev`. -/
theorem withBrightness_prev (v : Binary64) {k : RawBrt → State → Attempt} {s : State}
    (hk : ∀ n, (k n s).KeepsPrevOrFlushes s) : (withBrightness v k s).KeepsPrevOrFlushes s := by
  cases hv : inUnit v with
  | true => rw [withBrightness_ok hv]; exact hk _
  | false => rw [withBrightness_bad hv]; exact .of_raised rfl

/-- SETUP writes no `prev`, whether its calls end ok or in a failure. -/
theorem setupBody_prev (s : State) : (setupBody s).KeepsPrevOrFlushes s := by
  rintro t (h | h)
  · obtain ⟨u, hu, ht⟩ := Attempt.andThen_done_iff.1 h
    obtain ⟨rfl, -⟩ := issueCalls_done hu
    cases ht
    exact .inl rfl
  · rcases Attempt.andThen_raised_iff.1 h with h | ⟨u, -, ht⟩
    · obtain ⟨before, e, after, -, -, -, rfl⟩ := issueCalls_raised h
      exact .inl rfl
    · cases ht

/-- A SHOW that completes left the trace and `prev` alone, or flushed the frame of `cur` and nothing after it. -/
theorem showBody_done_prev {s t : State} (h : showBody s = .done t) :
    t.prev = s.prev ∨ (t.prev = t.cur ∧ s.NextCallsOk 906 ∧ t.trace = s.trace ++ frame t.cur) := by
  rcases showBody_done h with ⟨-, rfl⟩ | ⟨-, rfl, hok⟩
  · exact .inl rfl
  · rw [frame_length] at hok
    exact .inr ⟨rfl, hok, rfl⟩

/-- A SHOW whose frame fails part-way commits nothing (R19). -/
theorem showBody_raised_prev {s t : State} (h : showBody s = .raised t) : t.prev = s.prev := by
  obtain ⟨-, before, e, after, -, -, rfl⟩ := showBody_raised h
  rfl

theorem showBody_prev (s : State) : (showBody s).KeepsPrevOrFlushes s := by
  rintro t (h | h)
  · rcases showBody_done_prev h with hp | ⟨hp, hok, htr⟩
    · exact .inl hp
    · exact .inr ⟨hp, hok, .inl htr⟩
  · exact .inl (showBody_raised_prev h)

/-- The flush of CLOSE, followed by anything that only adds the release to the trace. -/
theorem PrevKeptOrFlushed.of_show_then_release {s u t : State} (hu : showBody (clearColours s) = .done u)
    (hcur : t.cur = u.cur) (hprev : t.prev = u.prev) (htrace : t.trace = u.trace ++ [.rel]) :
    PrevKeptOrFlushed s t := by
  rcases showBody_done_prev hu with hp | ⟨hp, hok, htr⟩
  · exact .inl (hprev.trans hp)
  · refine .inr ⟨by rw [hprev, hp, hcur], hok, .inr ?_⟩
    rw [htrace, htr, hcur, clearColours_trace]

/-- CLOSE writes `prev` only by its black frame; a release that fails comes after the commit (R87). -/
theorem closeBody_prev (s : State) : (closeBody s).KeepsPrevOrFlushes s := by
  rintro t (h | h)
  · obtain ⟨u, hu, -, rfl⟩ := closeBody_done h
    exact .of_show_then_release hu rfl rfl rfl
  · rcases closeBody_raised h with h | ⟨u, hu, -, rfl⟩
    · have hp : t.prev = (clearColours s).prev := showBody_raised_prev h
      exact .inl hp
    · exact .of_show_then_release hu rfl rfl rfl

/-- No body of a command writes `prev` but by a flushed frame. -/
theorem commandBody_prev (i : Instr) (s : State) : (commandBody i s).KeepsPrevOrFlushes s := by
  cases i with
  | setup => exact setupBody_prev s
  | setPixel idx r g b =>
    rw [commandBody]
    exact withIndex_prev idx fun _ => .of_done rfl
  | setAll r g b => exact .of_done rfl
  | setBrt v =>
    rw [commandBody]
    exact withBrightness_prev v fun _ => .of_done rfl
  | setPixBrt idx v =>
    rw [commandBody]
    exact withBrightness_prev v fun _ => withIndex_prev idx fun _ => .of_done rfl
  | clear => exact .of_done rfl
  | showCmd => exact showBody_prev s
  | close => exact closeBody_prev s
  | setCoe en => exact .of_done (by cases en <;> rfl)

/-- Every command keeps `prev` or flushes a frame: one that a halted block drops changes nothing. -/
theorem exec_prev {i : Instr} {s t : State} (h : exec i s = .next t) : PrevKeptOrFlushed s t := by
  rcases exec_next h with ⟨-, rfl⟩ | ⟨-, -, ht⟩
  · exact .inl rfl
  · exact commandBody_prev i s t ht

/-- The interrupt writes `prev` only as CLOSE does (R111). -/
theorem takeInterrupt_prev {s t : State} (h : takeInterrupt s = .next t) : PrevKeptOrFlushed s t := by
  rcases takeInterrupt_next h with ⟨-, rfl⟩ | hc | ⟨u, hc, rfl⟩
  · exact .inl rfl
  · exact closeBody_prev s t (.inr hc)
  · exact closeBody_prev s u (.inl hc)

/-- Taking an input off the list is no change of the registers, the oracle or the trace. -/
theorem PrevKeptOrFlushed.of_withInputs {s t : State} {rest : List Input}
    (h : PrevKeptOrFlushed (s.withInputs rest) t) : PrevKeptOrFlushed s t := h

/-- Every step that is no reset keeps `prev` or flushes a frame. -/
theorem step_prev {s t : State} (hr : s.NoResetNext) (h : step s = .next t) : PrevKeptOrFlushed s t := by
  rcases step_next_cases hr h with ⟨-, rfl⟩ | ⟨rest, -, h⟩ | ⟨w, rest, i, -, -, h⟩ | ⟨w, rest, e, -, -, h⟩
  · exact .inl rfl
  · exact (takeInterrupt_prev h).of_withInputs
  · exact (exec_prev h).of_withInputs
  · obtain ⟨-, rfl⟩ := rejectBundle_next h
    exact .inl rfl

/-- Settles O55: every step that is no reset keeps `prev` or flushes a frame, and this one did not keep it. -/
theorem prevWrittenOnlyByFlush : Obligations.PrevWrittenOnlyByFlush := by
  intro s t hr h hne
  exact (step_prev hr h).resolve_left hne

end Sys2Proof.Machine
end

-- Proofs of the encoding family (30_encoding.md): what the opcode selects, and the bits of a frame on the wire.
section
/-! PROOFS. 30_encoding.md R49 and R58: the opcode alone selects the command, and the sampled bit stream of a frame. -/

namespace Sys2Proof

/-! ### The opcode and R49's mask -/

/-- The mask of R49 leaves the opcode in its place and clears the other fields. -/
theorem and_opMask (w : Bundle) : w &&& 0xF00000000000000000000000 = pack (opField w) 0 0 0 0 0 := by
  have hmask : (0xF00000000000000000000000 : Bundle) = pack (BitVec.allOnes 4) 0 0 0 0 0 := rfl
  conv_lhs => rw [hmask, ← pack_fields w, pack_and, BitVec.and_allOnes]
  simp

/-- R49's test, mask and match, is a test of the `op` field. -/
theorem and_opMask_eq_iff (w : Bundle) (op : BitVec 4) :
    w &&& 0xF00000000000000000000000 = pack op 0 0 0 0 0 ↔ opField w = op := by
  rw [and_opMask]
  exact ⟨fun h => by simpa using congrArg opField h, fun h => by rw [h]⟩

theorem pack_op_toNat (op : BitVec 4) : (pack op 0 0 0 0 0).toNat = op.toNat * 2 ^ 92 := by
  revert op; decide

theorem le_and_opMask_iff (w : Bundle) (op : BitVec 4) :
    pack op 0 0 0 0 0 ≤ w &&& 0xF00000000000000000000000 ↔ op ≤ opField w := by
  rw [and_opMask, BitVec.le_def, BitVec.le_def, pack_op_toNat, pack_op_toNat]
  omega

/-! ### What the decoder answers for each opcode (R49, R55) -/

section
variable {w : Bundle}

theorem decode_of_op_setup (h : opField w = 1) : decode w = .ok .setup := by simp [decode, h]

theorem decode_of_op_setPixel (h : opField w = 2) :
    decode w = .ok (.setPixel (idxField w) (rField w) (gField w) (bField w)) := by simp [decode, h]

theorem decode_of_op_setAll (h : opField w = 3) : decode w = .ok (.setAll (rField w) (gField w) (bField w)) := by
  simp [decode, h]

theorem decode_of_op_setBrt (h : opField w = 4) : decode w = .ok (.setBrt (vField w)) := by simp [decode, h]

theorem decode_of_op_setPixBrt (h : opField w = 5) : decode w = .ok (.setPixBrt (idxField w) (vField w)) := by
  simp [decode, h]

theorem decode_of_op_clear (h : opField w = 6) : decode w = .ok .clear := by simp [decode, h]

theorem decode_of_op_showCmd (h : opField w = 7) : decode w = .ok .showCmd := by simp [decode, h]

theorem decode_of_op_close (h : opField w = 8) : decode w = .ok .close := by simp [decode, h]

theorem decode_of_op_setCoe (h : opField w = 9) : decode w = .ok (.setCoe (enField w)) := by simp [decode, h]

/-- A bundle that decodes carries the opcode of its command's canonical encoding. -/
theorem opField_of_decode {i : Instr} (h : decode w = .ok i) : opField w = opField (encode i) := by
  apply BitVec.eq_of_toNat_eq
  unfold decode at h
  split at h <;> cases h
  all_goals rename_i hop; simpa [encode] using hop

/-- The decoder rejects exactly the opcodes 0x0 and 0xA to 0xF (R55). -/
theorem decode_error_iff : (∃ e, decode w = .error e) ↔ opField w = 0 ∨ 0xA ≤ opField w := by
  constructor
  · rintro ⟨e, h⟩
    unfold decode at h
    split at h
    case h_10 => simp only [imp_false] at *; bv_omega
    all_goals cases h
  · intro h
    refine ⟨.reservedOpcode (opField w), ?_⟩
    unfold decode
    split
    case h_10 => rfl
    all_goals bv_omega

end

/-- A condition that says what `op` is, in the form of a row of R49's table. -/
theorem iff_opMask_match {w : Bundle} {P : Prop} (op : BitVec 4)
    (hop : P → opField w = op) (hdec : opField w = op → P) :
    P ↔ w &&& 0xF00000000000000000000000 = pack op 0 0 0 0 0 :=
  Iff.trans ⟨hop, hdec⟩ (and_opMask_eq_iff w op).symm

/-- Settles O4: each row of R49's table is a test of the `op` field, which `opField_of_decode` and the equations
`decode_of_op_…` answer in the two directions. -/
theorem opcodeMap : Obligations.OpcodeMap := by
  intro w
  refine ⟨?setup, ?setPixel, ?setAll, ?setBrt, ?setPixBrt, ?clear, ?showCmd, ?close, ?setCoe, ?rejected⟩
  case setup => exact iff_opMask_match 1 opField_of_decode decode_of_op_setup
  case setPixel =>
    refine iff_opMask_match 2 ?_ fun hop => ⟨_, _, _, _, decode_of_op_setPixel hop⟩
    rintro ⟨idx, r, g, b, h⟩
    exact (opField_of_decode h).trans (opField_pack ..)
  case setAll =>
    refine iff_opMask_match 3 ?_ fun hop => ⟨_, _, _, decode_of_op_setAll hop⟩
    rintro ⟨r, g, b, h⟩
    exact (opField_of_decode h).trans (opField_pack ..)
  case setBrt =>
    refine iff_opMask_match 4 ?_ fun hop => ⟨_, decode_of_op_setBrt hop⟩
    rintro ⟨v, h⟩
    exact (opField_of_decode h).trans (opField_pack ..)
  case setPixBrt =>
    refine iff_opMask_match 5 ?_ fun hop => ⟨_, _, decode_of_op_setPixBrt hop⟩
    rintro ⟨idx, v, h⟩
    exact (opField_of_decode h).trans (opField_pack ..)
  case clear => exact iff_opMask_match 6 opField_of_decode decode_of_op_clear
  case showCmd => exact iff_opMask_match 7 opField_of_decode decode_of_op_showCmd
  case close => exact iff_opMask_match 8 opField_of_decode decode_of_op_close
  case setCoe =>
    refine iff_opMask_match 9 ?_ fun hop => ⟨_, decode_of_op_setCoe hop⟩
    rintro ⟨en, h⟩
    exact (opField_of_decode h).trans (opField_pack ..)
  case rejected =>
    rw [decode_error_iff]
    exact or_congr (and_opMask_eq_iff w 0).symm (le_and_opMask_iff w 0xA).symm

end Sys2Proof

namespace Sys2Proof.Machine

/-! ### The bits sent for a pixel are its word's (R57, R76) -/

/-- `HDR | zext_8(BRT)` is three ones with the brightness below them. -/
theorem firstByte_eq_append (p : Pixel) : firstByte p = (0b111 : BitVec 3) ++ p.BRT := by
  have h : ∀ n : RawBrt, headerByte ||| n.setWidth 8 = (0b111 : BitVec 3) ++ n := by decide
  exact h p.BRT

/-- The pixel word is the four bytes that are sent for the pixel, the first one at the top. -/
theorem pixelWord_eq_append (p : Pixel) : pixelWord p = firstByte p ++ p.B ++ p.G ++ p.R := by
  rw [firstByte_eq_append]; rfl

/-- Every bit of four bytes side by side, byte by byte. -/
theorem getLsbD_fourBytes (x y z t : Byte) (k : Nat) : BitVec.getLsbD (w := 32) (x ++ y ++ z ++ t) k =
    if k < 8 then t.getLsbD k else if k < 16 then z.getLsbD (k - 8) else if k < 24 then y.getLsbD (k - 16)
    else x.getLsbD (k - 24) := by
  show BitVec.getLsbD (w := 8 + 8 + 8 + 8) (x ++ y ++ z ++ t) k = _
  simp only [BitVec.getLsbD_append, Nat.sub_sub]
  grind

/-- The bits of four bytes side by side are the bits of each in turn. -/
theorem wordBits_append (x y z t : Byte) :
    wordBits (x ++ y ++ z ++ t) = byteBits x ++ byteBits y ++ byteBits z ++ byteBits t := by
  simp only [wordBits, getLsbD_fourBytes]
  rfl

theorem sendWord_eq_sendBits (p : Pixel) : sendWord p = sendBits (wordBits (pixelWord p)) := by
  rw [pixelWord_eq_append, wordBits_append, sendBits_append, sendBits_append, sendBits_append]; rfl

theorem sendWords_eq_sendBits (ps : List Pixel) :
    sendWords ps = sendBits (ps.flatMap fun p => wordBits (pixelWord p)) := by
  induction ps with
  | nil => rfl
  | cons p ps ih => rw [sendWords_cons, ih, sendWord_eq_sendBits, List.flatMap_cons, sendBits_append]

/-! ### The samples of each piece of a frame (R73, R74, R77, R78) -/

/-- Pulses sample the data level they find, once each. -/
theorem sampleFrom_pulses (level : Option Bool) (n : Nat) : sampleFrom level (pulses n) = List.replicate n level := by
  induction n with
  | zero => rfl
  | succ n ih => simp [pulse, sampleFrom, ih, List.replicate_succ]

/-- Both marks of a frame, a low data line and then `n` pulses, sample as `n` zeros. -/
theorem sampleFrom_mark (level : Option Bool) (n : Nat) :
    sampleFrom level (.wr .dat false :: pulses n) = List.replicate n (some false) := by
  rw [sampleFrom, sampleFrom_pulses]

/-- Sent bits are sampled as they are, whatever the data level before them. -/
theorem sampleFrom_sendBits (level : Option Bool) (bs : List Bool) : sampleFrom level (sendBits bs) = bs.map some := by
  induction bs generalizing level with
  | nil => rfl
  | cons b bs ih => simp [sendBit, pulse, sampleFrom, ih]

/-- Settles O32: the frame is the two marks around the bits of the pixel words, each piece sampled by its rule. -/
theorem frameBitStream : Obligations.FrameBitStream := by
  intro c
  calc sampled (frame c)
      = List.replicate sofPulses (some false) ++ (c.toList.flatMap fun p => wordBits (pixelWord p)).map some ++
          List.replicate eofPulses (some false) := by
        rw [sampled, frame, sampleFrom_append, sampleFrom_append, sof, eof, sampleFrom_mark, sampleFrom_mark,
          sendWords_eq_sendBits, sampleFrom_sendBits]
    _ = _ := by rw [List.map_flatMap]; rfl

end Sys2Proof.Machine
end

-- Proofs of the encoding statements (30_encoding.md): the round trips, the unused bits, the source line.
section
/-! PROOFS. 30_encoding.md R47 to R54 and R59: decoding and encoding undo one another up to the bits a format does not
use, and what command a checked source line stands for. -/

namespace Sys2Proof

/-! ### The round trips (R47 to R54) -/

/-- Settles O1: the encoding carries its command's opcode, and the fields are read back from where they were packed. -/
theorem decodeOfEncode : Obligations.DecodeOfEncode := by
  intro i
  cases i with
  | setup => exact decode_of_op_setup (opField_pack ..)
  | setPixel idx r g b => rw [encode, decode_of_op_setPixel (opField_pack ..)]; simp
  | setAll r g b => rw [encode, decode_of_op_setAll (opField_pack ..)]; simp
  | setBrt v => rw [encode, decode_of_op_setBrt (opField_pack ..)]; simp
  | setPixBrt idx v => rw [encode, decode_of_op_setPixBrt (opField_pack ..)]; simp
  | clear => exact decode_of_op_clear (opField_pack ..)
  | showCmd => exact decode_of_op_showCmd (opField_pack ..)
  | close => exact decode_of_op_close (opField_pack ..)
  | setCoe en => rw [encode, decode_of_op_setCoe (opField_pack ..), enField_pack]; cases en <;> rfl

/-- Two packed bundles are equal when their fields are. -/
theorem pack_inj {op op' idx idx' : BitVec 4} {r g b r' g' b' : Byte} {v v' : Binary64} :
    pack op idx r g b v = pack op' idx' r' g' b' v' ↔
      op = op' ∧ idx = idx' ∧ r = r' ∧ g = g' ∧ b = b' ∧ v = v' := by
  constructor
  · intro h
    exact ⟨by simpa using congrArg opField h, by simpa using congrArg idxField h, by simpa using congrArg rField h,
      by simpa using congrArg gField h, by simpa using congrArg bField h, by simpa using congrArg vField h⟩
  · rintro ⟨rfl, rfl, rfl, rfl, rfl, rfl⟩; rfl

/-- The bits each format uses, packed (R48). -/
theorem Format.usedBits_eq_pack (f : Format) :
    f.usedBits = match f with
      | .n => pack (BitVec.allOnes 4) 0 0 0 0 0
      | .pc => pack (BitVec.allOnes 4) (BitVec.allOnes 4) (BitVec.allOnes 8) (BitVec.allOnes 8) (BitVec.allOnes 8) 0
      | .c => pack (BitVec.allOnes 4) 0 (BitVec.allOnes 8) (BitVec.allOnes 8) (BitVec.allOnes 8) 0
      | .v => pack (BitVec.allOnes 4) 0 0 0 0 (BitVec.allOnes 64)
      | .pv => pack (BitVec.allOnes 4) (BitVec.allOnes 4) 0 0 0 (BitVec.allOnes 64)
      | .e => pack (BitVec.allOnes 4) 0 0 0 1 0 := by
  cases f <;> rfl

/-- A bundle with the bits a format does not use cleared keeps the format's fields and loses the others. -/
theorem and_usedBits (w : Bundle) (f : Format) :
    w &&& f.usedBits = match f with
      | .n => pack (opField w) 0 0 0 0 0
      | .pc => pack (opField w) (idxField w) (rField w) (gField w) (bField w) 0
      | .c => pack (opField w) 0 (rField w) (gField w) (bField w) 0
      | .v => pack (opField w) 0 0 0 0 (vField w)
      | .pv => pack (opField w) (idxField w) 0 0 0 (vField w)
      | .e => pack (opField w) 0 0 0 (bField w &&& 1) 0 := by
  conv_lhs => rw [← pack_fields w, Format.usedBits_eq_pack]
  cases f <;> simp only [pack_and, BitVec.and_allOnes, BitVec.ofNat_eq_ofNat, BitVec.and_zero]

/-- The bit `en` of the `b` field, alone (R53). -/
theorem bField_and_one_eq_iff (w : Bundle) (en : Bool) :
    bField w &&& 1 = (if en then 1 else 0) ↔ enField w = en := by
  have hen : enField w = (bField w).getLsbD 0 := by rw [bField, BitVec.getLsbD_extractLsb']; rfl
  have h : ∀ b : Byte, b &&& 1 = (if en then 1 else 0) ↔ b.getLsbD 0 = en := by cases en <;> decide
  rw [hen]
  exact h _

/-- A bundle decodes to a command exactly when it is the command's canonical encoding but for the unused bits. -/
theorem decode_eq_ok_iff (w : Bundle) (i : Instr) : decode w = .ok i ↔ w &&& i.format.usedBits = encode i := by
  rw [and_usedBits]
  constructor
  · intro h
    have hop := opField_of_decode h
    cases i <;> simp only [encode, opField_pack] at hop <;> simp only [Instr.format, encode, hop]
    case setPixel => simp_all [decode_of_op_setPixel hop]
    case setAll => simp_all [decode_of_op_setAll hop]
    case setBrt => simp_all [decode_of_op_setBrt hop]
    case setPixBrt => simp_all [decode_of_op_setPixBrt hop]
    case setCoe en =>
      rw [decode_of_op_setCoe hop] at h
      rw [(bField_and_one_eq_iff w en).2 (by simpa using h)]
  · intro h
    cases i with
    | setup => exact decode_of_op_setup (pack_inj.1 h).1
    | setPixel idx r g b =>
      obtain ⟨hop, rfl, rfl, rfl, rfl, -⟩ := pack_inj.1 h
      exact decode_of_op_setPixel hop
    | setAll r g b =>
      obtain ⟨hop, -, rfl, rfl, rfl, -⟩ := pack_inj.1 h
      exact decode_of_op_setAll hop
    | setBrt v =>
      obtain ⟨hop, -, -, -, -, rfl⟩ := pack_inj.1 h
      exact decode_of_op_setBrt hop
    | setPixBrt idx v =>
      obtain ⟨hop, rfl, -, -, -, rfl⟩ := pack_inj.1 h
      exact decode_of_op_setPixBrt hop
    | clear => exact decode_of_op_clear (pack_inj.1 h).1
    | showCmd => exact decode_of_op_showCmd (pack_inj.1 h).1
    | close => exact decode_of_op_close (pack_inj.1 h).1
    | setCoe en =>
      obtain ⟨hop, -, -, -, hb, -⟩ := pack_inj.1 h
      rw [decode_of_op_setCoe hop, (bField_and_one_eq_iff w en).1 hb]

/-- Settles O2. -/
theorem encodeOfDecode : Obligations.EncodeOfDecode :=
  fun w i h => ((decode_eq_ok_iff w i).1 h).symm

/-- Settles O3: a flip of unused bits is masked away before the bundle is compared with the encoding. -/
theorem unusedBitsIgnored : Obligations.UnusedBitsIgnored := by
  intro w u i h hu
  rw [decode_eq_ok_iff] at h ⊢
  have hmask : (w ^^^ u) &&& i.format.usedBits = (w &&& i.format.usedBits) ^^^ (u &&& i.format.usedBits) :=
    BitVec.eq_of_getLsbD_eq fun k _ => by simp [Bool.and_xor_distrib_right]
  rw [hmask, hu, h]
  exact BitVec.xor_zero

/-- Settles O5: each bundle is evaluated. -/
theorem knownBundlesDecode : Obligations.KnownBundlesDecode :=
  ⟨rfl, rfl, rfl, rfl, rfl, rfl, rfl, rfl, rfl, rfl, rfl, rfl⟩

end Sys2Proof

namespace Sys2Proof.Machine

/-! ### Source lines (R59) -/

theorem Literal.below_iff {bound : Nat} {l : Literal} :
    l.below bound = true ↔ ∃ n, l.int? = some n ∧ n < bound := by
  unfold Literal.below
  cases l.int? <;> simp

/-- An integer literal that fits a field of `k` bits is read into it as it is. -/
theorem int?_eq_ofNat {k bound : Nat} (hb : bound ≤ 2 ^ k) {l : Literal} (h : l.below bound = true) :
    l.int? = some (BitVec.ofNat k (literalInt l)).toNat := by
  obtain ⟨n, hn, hlt⟩ := Literal.below_iff.1 h
  rw [literalInt, hn, BitVec.toNat_ofNat, Option.getD_some, Nat.mod_eq_of_lt (by omega)]

/-- An enable literal is the bit it stands for. -/
theorem int?_eq_enable {l : Literal} (h : l.below 2 = true) : l.int? = some (literalInt l == 1).toNat := by
  obtain ⟨n, hn, hlt⟩ := Literal.below_iff.1 h
  rw [literalInt, hn, Option.getD_some]
  interval_cases n <;> rfl

/-- A raw pattern is the 16 digits written. -/
theorem literalBrightness_hex {l : Literal} (h : l.brightnessForm = true) {digits n : Nat} (hl : l = .hex digits n) :
    digits = 16 ∧ (literalBrightness l).toNat = n := by
  subst hl
  obtain ⟨hd, hn⟩ : digits = 16 ∧ n < 2 ^ 64 := by simpa [Literal.brightnessForm] using h
  exact ⟨hd, Nat.mod_eq_of_lt hn⟩

/-- A check passed behind a guard: the guard held. -/
theorem ok_of_guard {c : Bool} {e : SourceError} {x : Except SourceError Unit}
    (h : (if (!c) = true then .error e else x) = .ok ()) : c = true ∧ x = .ok () := by
  cases c <;> simp_all

/-- Settles O6: the nine accepting branches of the check, one for each mnemonic. -/
theorem checkedLineNamesCommand : Obligations.CheckedLineNamesCommand := by
  rintro ⟨m, ops⟩ h
  unfold checkSource at h
  split at h
  case h_1 hm ho => cases hm; cases ho; exact .inl ⟨rfl, rfl⟩
  case h_2 i r g b hm ho =>
    cases hm; cases ho
    obtain ⟨hi, h⟩ := ok_of_guard h
    obtain ⟨hr, hg, hb⟩ : r.below 256 = true ∧ g.below 256 = true ∧ b.below 256 = true := by simpa [and_assoc] using h
    exact .inr (.inl ⟨i, r, g, b, _, _, _, _, rfl, rfl, int?_eq_ofNat (k := 4) le_rfl hi,
      int?_eq_ofNat (k := 8) le_rfl hr, int?_eq_ofNat (k := 8) le_rfl hg, int?_eq_ofNat (k := 8) le_rfl hb⟩)
  case h_3 r g b hm ho =>
    cases hm; cases ho
    obtain ⟨hr, hg, hb⟩ : r.below 256 = true ∧ g.below 256 = true ∧ b.below 256 = true := by simpa [and_assoc] using h
    exact .inr (.inr (.inl ⟨r, g, b, _, _, _, rfl, rfl, int?_eq_ofNat (k := 8) le_rfl hr,
      int?_eq_ofNat (k := 8) le_rfl hg, int?_eq_ofNat (k := 8) le_rfl hb⟩))
  case h_4 v hm ho =>
    cases hm; cases ho
    have hv : v.brightnessForm = true := by simpa using h
    exact .inr (.inr (.inr (.inl ⟨v, _, rfl, rfl, rfl, fun _ _ => literalBrightness_hex hv⟩)))
  case h_5 i v hm ho =>
    cases hm; cases ho
    obtain ⟨hi, h⟩ := ok_of_guard h
    have hv : v.brightnessForm = true := by simpa using h
    exact .inr (.inr (.inr (.inr (.inl ⟨i, v, _, _, rfl, rfl, int?_eq_ofNat (k := 4) le_rfl hi, rfl,
      fun _ _ => literalBrightness_hex hv⟩))))
  case h_6 hm ho => cases hm; cases ho; exact .inr (.inr (.inr (.inr (.inr (.inl ⟨rfl, rfl⟩)))))
  case h_7 hm ho => cases hm; cases ho; exact .inr (.inr (.inr (.inr (.inr (.inr (.inl ⟨rfl, rfl⟩))))))
  case h_8 hm ho => cases hm; cases ho; exact .inr (.inr (.inr (.inr (.inr (.inr (.inr (.inl ⟨rfl, rfl⟩)))))))
  case h_9 e hm ho =>
    cases hm; cases ho
    have he : e.below 2 = true := by simpa using h
    exact .inr (.inr (.inr (.inr (.inr (.inr (.inr (.inr ⟨e, _, rfl, rfl, int?_eq_enable he⟩)))))))
  case h_10 => split at h <;> cases h

end Sys2Proof.Machine
end

-- Proofs about the frame (41_frame_encoder.md): counts, shape, what it says of the pixels, levels.
section
/-! PROOFS. 41_frame_encoder.md R79 to R83 and 30_encoding.md R57: a frame as the bits of its strip between two marks,
and what follows from that. -/

namespace Sys2Proof.Machine

/-! ### A frame as bits between two marks -/

/-- The bits of a strip on the wire: the pixel words, pixel 0 first, bit 31 first (R57, R76). -/
def stripBits (c : Strip) : List Bool := c.toList.flatMap fun p => wordBits (pixelWord p)

theorem stripBits_length (c : Strip) : (stripBits c).length = 256 := by
  simp [stripBits, Strip.toList, wordBits]

theorem frame_eq_marks (c : Strip) : frame c = sof ++ sendBits (stripBits c) ++ eof := by
  rw [frame, sendWords_eq_sendBits, stripBits]

/-! ### Counts (R80) -/

theorem countP_pulses (P : Event → Bool) (n : Nat) :
    (pulses n).countP P = n * ((P (.wr .clk true)).toNat + (P (.wr .clk false)).toNat) := by
  induction n with
  | zero => simp
  | succ n ih =>
    rw [pulses_succ, List.countP_append, ih, pulse, List.countP_cons, List.countP_singleton]
    cases P (.wr .clk true) <;> cases P (.wr .clk false) <;> simp <;> omega

/-- Counting with a test that does not look at the value of a data write. -/
theorem countP_sendBits {P : Event → Bool} (hP : P (.wr .dat true) = P (.wr .dat false)) (bs : List Bool) :
    (sendBits bs).countP P = bs.length * (P (.wr .dat false)).toNat + (pulses bs.length).countP P := by
  have hdat : ∀ b, P (.wr .dat b) = P (.wr .dat false) := by rintro (_ | _) <;> simp [hP]
  induction bs with
  | nil => simp
  | cons b bs ih =>
    rw [sendBits_cons, List.countP_append, ih, sendBit, List.countP_cons, hdat b, List.length_cons, pulses_succ,
      List.countP_append, add_mul]
    cases P (.wr .dat false) with
    | false => simp
    | true => simp; omega

/-- Such a count is the same for every frame: 258 data writes and 324 pulses. -/
theorem countP_frame {P : Event → Bool} (hP : P (.wr .dat true) = P (.wr .dat false)) (c : Strip) :
    (frame c).countP P =
      258 * (P (.wr .dat false)).toNat + 324 * ((P (.wr .clk true)).toNat + (P (.wr .clk false)).toNat) := by
  rw [frame_eq_marks, sof, eof, List.countP_append, List.countP_append, List.countP_cons, List.countP_cons,
    countP_sendBits hP, stripBits_length, countP_pulses, countP_pulses, countP_pulses, sofPulses, eofPulses]
  cases P (.wr .dat false) <;> simp <;> omega

/-- Settles O31: the lengths of the pieces, and one count for each kind of write. -/
theorem frameCounts : Obligations.FrameCounts := by
  refine ⟨sof_length, sendWord_length, eof_length, fun c => ⟨frame_length c, ?_, ?_, ?_, ?_, ?_⟩⟩
  · rw [← List.countP_eq_length_filter, countP_frame (by simp)]; simp
  · rw [← List.countP_eq_length_filter, countP_frame (by simp)]; simp
  · rw [← List.countP_eq_length_filter, countP_frame (by simp)]; simp
  · intro l h
    obtain ⟨l', b, h⟩ := frame_writes c _ h
    cases h
  · intro h
    obtain ⟨l', b, h⟩ := frame_writes c _ h
    cases h

/-! ### Shape (R79) -/

/-- A view of events that hides the value of a data write shows only how many bits were sent. -/
theorem map_sendBits_eq {f : Event → Event} (hf : f (.wr .dat true) = f (.wr .dat false)) {bs cs : List Bool}
    (h : bs.length = cs.length) : (sendBits bs).map f = (sendBits cs).map f := by
  have hbit : ∀ b, (sendBit b).map f = (sendBit false).map f := by rintro (_ | _) <;> simp [sendBit, hf]
  induction bs generalizing cs with
  | nil => rw [List.length_eq_zero_iff.1 h.symm]
  | cons b bs ih =>
    cases cs with
    | nil => cases h
    | cons c cs =>
      rw [sendBits_cons, sendBits_cons, List.map_append, List.map_append, hbit b, hbit c, ih (Nat.succ.inj h)]

theorem map_frame_eq {f : Event → Event} (hf : f (.wr .dat true) = f (.wr .dat false)) (c d : Strip) :
    (frame c).map f = (frame d).map f := by
  rw [frame_eq_marks, frame_eq_marks]
  simp only [List.map_append]
  rw [map_sendBits_eq hf ((stripBits_length c).trans (stripBits_length d).symm)]

/-- Settles O34: the view of the statement hides the value of a data write. -/
theorem frameShapeIndependentOfPixels : Obligations.FrameShapeIndependentOfPixels :=
  fun c d => map_frame_eq rfl c d

/-! ### A frame determines its strip (R57, R83) -/

/-- Settles O33: `0xE0` leaves the five low bits free. -/
theorem firstByteIsHeaderPlusBrightness : Obligations.FirstByteIsHeaderPlusBrightness := by
  intro p
  have h : ∀ n : RawBrt, (headerByte ||| n.setWidth 8).toNat = 0xE0 + n.toNat := by decide
  have hp : (firstByte p).toNat = 0xE0 + p.BRT.toNat := h p.BRT
  exact ⟨hp, by omega⟩

theorem firstByte_BRT_inj {p q : Pixel} (h : firstByte p = firstByte q) : p.BRT = q.BRT := by
  have hp := (firstByteIsHeaderPlusBrightness p).1
  have hq := (firstByteIsHeaderPlusBrightness q).1
  rw [h] at hp
  exact BitVec.eq_of_toNat_eq (by omega)

theorem byteBits_inj {x y : Byte} (h : byteBits x = byteBits y) : x = y := by
  simp only [byteBits, List.map_cons, List.map_nil, List.cons.injEq, and_true] at h
  apply BitVec.eq_of_getLsbD_eq
  intro i hi
  interval_cases i <;> simp only [h]

/-- Sent bits can be sampled back, so they determine the bits. -/
theorem sendBits_inj {bs cs : List Bool} (h : sendBits bs = sendBits cs) : bs = cs := by
  have hs := congrArg (sampleFrom none) h
  rw [sampleFrom_sendBits, sampleFrom_sendBits] at hs
  exact List.map_injective_iff.2 (Option.some_injective _) hs

theorem sendByte_inj {x y : Byte} (h : sendByte x = sendByte y) : x = y := byteBits_inj (sendBits_inj h)

theorem sendWord_inj {p q : Pixel} (h : sendWord p = sendWord q) : p = q := by
  have hlen : ∀ x y : Byte, (sendByte x).length = (sendByte y).length := fun x y => by simp only [sendByte_length]
  obtain ⟨h, hR⟩ := List.append_inj' h (hlen _ _)
  obtain ⟨h, hG⟩ := List.append_inj' h (hlen _ _)
  obtain ⟨hF, hB⟩ := List.append_inj' h (hlen _ _)
  have hBRT := firstByte_BRT_inj (sendByte_inj hF)
  cases p; cases q
  rw [Pixel.mk.injEq]
  exact ⟨sendByte_inj hR, sendByte_inj hG, sendByte_inj hB, hBRT⟩

theorem sendWords_inj {ps qs : List Pixel} (hlen : ps.length = qs.length) (h : sendWords ps = sendWords qs) :
    ps = qs := by
  induction ps generalizing qs with
  | nil => exact (List.length_eq_zero_iff.1 hlen.symm).symm
  | cons p ps ih =>
    cases qs with
    | nil => cases hlen
    | cons q qs =>
      obtain ⟨hp, hps⟩ := List.append_inj h (by rw [sendWord_length, sendWord_length])
      rw [sendWord_inj hp, ih (Nat.succ.inj hlen) hps]

theorem Strip.toList_inj {c d : Strip} (h : c.toList = d.toList) : c = d := by
  cases c; cases d
  simpa [Strip.toList] using h

/-- Settles O35: between the marks stand the words, and each piece determines what was sent. -/
theorem frameDeterminesPixels : Obligations.FrameDeterminesPixels := by
  intro c d h
  obtain ⟨h, -⟩ := List.append_inj' h rfl
  exact Strip.toList_inj (sendWords_inj (by simp only [Strip.toList_length]) (List.append_cancel_left h))

/-! ### The levels a frame leaves (R82) -/

theorem levelAfter_dat_pulses (start : Option Bool) (n : Nat) : levelAfter .dat start (pulses n) = start := by
  induction n with
  | zero => rfl
  | succ n ih => simpa [pulse, levelAfter] using ih

/-- A pulse ends with the clock low. -/
theorem levelAfter_clk_pulses (start : Option Bool) (n : Nat) :
    levelAfter .clk start (pulses (n + 1)) = some false := by
  induction n generalizing start with
  | zero => rfl
  | succ n ih => rw [pulses_succ, levelAfter_append, ih]

/-- The end mark leaves both lines low. -/
theorem levelAfter_eof (l : Line) (start : Option Bool) : levelAfter l start eof = some false := by
  cases l with
  | clk => exact levelAfter_clk_pulses _ 35
  | dat => exact levelAfter_dat_pulses _ 36

/-- Settles O36: whatever came before it, the end mark decides. -/
theorem frameLeavesLinesLow : Obligations.FrameLeavesLinesLow := by
  intro c l start
  rw [frame, levelAfter_append, levelAfter_eof]

end Sys2Proof.Machine
end

-- Proofs about single commands (40_pixel_store.md, 42_controller.md): driver calls, SETUP, the setters.
section
/-! PROOFS. What one driver call does, and what SETUP, SETCOE and the five setters do to a running block, with the
faults they raise (40_pixel_store.md R66 to R71, 42_controller.md R84, R85 and R89, 43_line_driver.md R94 to R99). -/

namespace Sys2Proof.Machine

/-! ### One driver call (R94 to R99) -/

theorem uncovered_wr {l : Line} {s : State} (h : (s.line l).configured = true) (b : Bool) :
    uncovered (.wr l b) s = none := by simp [uncovered, h]

theorem issueCall_ok {e : Event} {s : State} (hu : uncovered e s = none) (hf : s.trace.length ∉ s.failing) :
    issueCall e s = .done (callOk e s) := by simp [issueCall, hu, hf]

theorem issueCall_failed {e : Event} {s : State} (hu : uncovered e s = none) (hf : s.trace.length ∈ s.failing) :
    issueCall e s = .raised (callFailed e s) := by simp [issueCall, hu, hf]

@[simp] theorem LineState.after_cfg_same (l : Line) (x : LineState) :
    x.after l (.cfg l) = { x with configured := true } := by simp [LineState.after]
theorem LineState.after_cfg_other {l m : Line} (h : m ≠ l) (x : LineState) : x.after m (.cfg l) = x := by
  simp [LineState.after, Ne.symm h]
@[simp] theorem LineState.after_wr_same (l : Line) (b : Bool) (x : LineState) :
    x.after l (.wr l b) = { x with level := some b } := by simp [LineState.after]
theorem LineState.after_wr_other {l m : Line} (h : m ≠ l) (b : Bool) (x : LineState) : x.after m (.wr l b) = x := by
  simp [LineState.after, Ne.symm h]
@[simp] theorem LineState.after_rel (l : Line) (x : LineState) :
    x.after l .rel = { x with configured := false } := rfl

/-- Settles O37: each call is `callOk`, and `LineState.after` says what that is on a line. -/
theorem driverCallEffects : Obligations.DriverCallEffects := by
  intro s l b hf
  refine ⟨⟨_, issueCall_ok rfl hf, by simp, ?_, fun m hm => ?_, by simp⟩,
    fun hc => ⟨_, issueCall_ok (uncovered_wr hc b) hf, by simp, ?_, fun m hm => ?_, by simp⟩,
    ⟨_, issueCall_ok rfl hf, by simp, fun m => ?_, by simp⟩⟩
  · rw [callOk_line, LineState.after_cfg_same]
  · rw [callOk_line, LineState.after_cfg_other hm]
  · rw [callOk_line, LineState.after_wr_same]
  · rw [callOk_line, LineState.after_wr_other hm]
  · rw [callOk_line, LineState.after_rel]

/-- Settles O38: `callFailed_line` leaves the two possibilities of R99, whatever the free value. -/
theorem failedCallOldOrNew : Obligations.FailedCallOldOrNew := by
  intro s e hf hc
  have hu : uncovered e s = none := by
    cases e with
    | cfg l => rfl
    | wr l b => exact uncovered_wr (hc l b rfl) b
    | rel => rfl
  exact ⟨_, issueCall_failed hu hf, by simp, by simp, callFailed_line e s, by simp⟩

/-! ### A command in a running block (R84) -/

/-- A running block in a mode that takes the command runs its pseudocode. -/
theorem exec_taken {i : Instr} {s : State} (hr : s.halt = .running) (hm : modeTakes i s.mode = true) :
    exec i s = (commandBody i s).outcome := by rw [exec_eq_accept, accept_running _ hr hm]

theorem exec_of_done {i : Instr} {s t : State} (hr : s.halt = .running) (hm : modeTakes i s.mode = true)
    (h : commandBody i s = .done t) : exec i s = .next t := by rw [exec_taken hr hm, h, Attempt.outcome_done]

theorem exec_of_raised {i : Instr} {s t : State} (hr : s.halt = .running) (hm : modeTakes i s.mode = true)
    (h : commandBody i s = .raised t) : exec i s = .next t := by rw [exec_taken hr hm, h, Attempt.outcome_raised]

theorem exec_halted {i : Instr} {s : State} (h : s.halt ≠ .running) : exec i s = .next s := by
  rw [exec_eq_accept, accept_halted _ h]

/-- Mode Ready takes every command but SETUP (R84). -/
theorem modeTakes_of_ready {i : Instr} {m : Mode} (hm : m = .ready) (hi : i ≠ .setup) : modeTakes i m = true := by
  subst hm
  cases i with
  | setup => exact absurd rfl hi
  | _ => rfl

/-! ### SETUP (R85) -/

theorem setupOrder_first_ne_second (o : Config.SetupOrder) : o.first ≠ o.second := by cases o <;> decide

/-- After both calls of SETUP a line is configured, its level as before (R94). -/
theorem after_setupCalls (o : Config.SetupOrder) (l : Line) (x : LineState) :
    (x.after l (.cfg o.first)).after l (.cfg o.second) = { x with configured := true } := by
  cases o <;> cases l <;> rfl

/-- SETUP is its two calls and then mode Ready. -/
theorem setupBody_eq (s : State) : setupBody s =
    ((issueCall (.cfg Config.setupOrder.first) s).andThen (issueCall (.cfg Config.setupOrder.second))).andThen
      fun t => .done (t.withMode .ready) := by
  rw [setupBody, setupCalls, issueCalls_cons]
  cases issueCall (.cfg Config.setupOrder.first) s with
  | done t => cases h : issueCall (.cfg Config.setupOrder.second) t <;> simp [issueCalls_cons, h]
  | raised t => rfl
  | refused r => rfl

/-- The first call of SETUP, when it is ok. -/
theorem issueCall_setup_first {s : State} (hf : s.trace.length ∉ s.failing) :
    issueCall (.cfg Config.setupOrder.first) s = .done (callOk (.cfg Config.setupOrder.first) s) :=
  issueCall_ok rfl hf

/-- Settles O13: two ok calls, one for each line. -/
theorem setupConfiguresBothLines : Obligations.SetupConfiguresBothLines := by
  rintro s ⟨hr, hm⟩ hok
  have hsecond : issueCall (.cfg Config.setupOrder.second) (callOk (.cfg Config.setupOrder.first) s) =
      .done (callOk (.cfg Config.setupOrder.second) (callOk (.cfg Config.setupOrder.first) s)) :=
    issueCall_ok rfl (by simpa using hok 1 (by decide))
  have hbody : commandBody .setup s = .done ((callOk (.cfg Config.setupOrder.second)
      (callOk (.cfg Config.setupOrder.first) s)).withMode .ready) := by
    rw [commandBody, setupBody_eq, issueCall_setup_first (hok 0 (by decide)), Attempt.andThen_done, hsecond,
      Attempt.andThen_done]
  refine ⟨_, exec_of_done hr (by rw [hm]; rfl) hbody, by simp, by simp, fun l => ?_, by simp⟩
  rw [State.line_withMode, callOk_line, callOk_line, after_setupCalls]
  exact ⟨rfl, rfl⟩

/-- A configuring call writes no level and clears no flag. -/
theorem after_cfg_keeps (l m : Line) (x : LineState) : (x.after l (.cfg m)).level = x.level ∧
    ((x.after l (.cfg m)).configured = x.configured ∨ (x.after l (.cfg m)).configured = true) := by
  by_cases h : l = m
  · subst h; simp
  · simp [LineState.after_cfg_other h]

/-- Nor does one that fails. -/
theorem callFailed_cfg_keeps (m l : Line) (s : State) : ((callFailed (.cfg m) s).line l).level = (s.line l).level ∧
    (((callFailed (.cfg m) s).line l).configured = (s.line l).configured ∨
      ((callFailed (.cfg m) s).line l).configured = true) := by
  rcases callFailed_line (.cfg m) s l with h | h <;> rw [h]
  · exact ⟨rfl, .inl rfl⟩
  · exact after_cfg_keeps l m _

/-- A failed configuring call leaves the other line alone. -/
theorem callFailed_cfg_other {l m : Line} (h : l ≠ m) (s : State) : (callFailed (.cfg m) s).line l = s.line l := by
  rcases callFailed_line (.cfg m) s l with h' | h' <;> rw [h']
  exact LineState.after_cfg_other h _

/-- Settles O14: the first call fails, or the second one after an ok first one. -/
theorem setupFailureHalts : Obligations.SetupFailureHalts := by
  rintro s k hk ⟨hr, hm⟩ hok hf
  have htakes : modeTakes .setup s.mode = true := by rw [hm]; rfl
  have hne := setupOrder_first_ne_second Config.setupOrder
  obtain rfl | rfl : k = 0 ∨ k = 1 := by omega
  · have hbody : commandBody .setup s = .raised (callFailed (.cfg Config.setupOrder.first) s) := by
      rw [commandBody, setupBody_eq, issueCall_failed rfl hf, Attempt.andThen_raised, Attempt.andThen_raised]
    exact ⟨_, exec_of_raised hr htakes hbody, by simp, by simp, fun l => callFailed_cfg_keeps _ l s,
      fun _ => callFailed_cfg_other hne.symm s, fun h => absurd h (by decide), by simp⟩
  · have hsecond : issueCall (.cfg Config.setupOrder.second) (callOk (.cfg Config.setupOrder.first) s) =
        .raised (callFailed (.cfg Config.setupOrder.second) (callOk (.cfg Config.setupOrder.first) s)) :=
      issueCall_failed rfl (by simpa using hf)
    have hbody : commandBody .setup s =
        .raised (callFailed (.cfg Config.setupOrder.second) (callOk (.cfg Config.setupOrder.first) s)) := by
      rw [commandBody, setupBody_eq, issueCall_setup_first (hok 0 (by decide)), Attempt.andThen_done, hsecond,
        Attempt.andThen_raised]
    refine ⟨_, exec_of_raised hr htakes hbody, by simp, by simp, fun l => ?_, fun h => absurd h (by decide),
      fun _ => ?_, by simp⟩
    · obtain ⟨hlevel, hconf⟩ := callFailed_cfg_keeps Config.setupOrder.second l
        (callOk (.cfg Config.setupOrder.first) s)
      obtain ⟨hlevel', hconf'⟩ := after_cfg_keeps l Config.setupOrder.first (s.line l)
      rw [callOk_line] at hlevel hconf
      refine ⟨hlevel.trans hlevel', ?_⟩
      rcases hconf with hconf | hconf
      · rw [hconf]; exact hconf'
      · exact .inr hconf
    · rw [callFailed_cfg_other hne, callOk_line, LineState.after_cfg_same]

/-! ### The setters (R66 to R71) -/

section
variable {s : State}

/-- The register an index operand selects. -/
theorem withIndex_eq {idx : BitVec 4} {i : Fin 8} (h : idx.toNat = i.val) (k : Fin 8 → State → Attempt) (s : State) :
    withIndex idx k s = k i s := by
  rw [withIndex_ok (h ▸ i.isLt)]
  congr 1
  exact Fin.ext h

theorem exec_ready_done {i : Instr} {t : State} (h : s.RunningIn .ready) (hi : i ≠ .setup)
    (hb : commandBody i s = .done t) : exec i s = .next t := exec_of_done h.1 (modeTakes_of_ready h.2 hi) hb

theorem exec_ready_raised {i : Instr} {t : State} (h : s.RunningIn .ready) (hi : i ≠ .setup)
    (hb : commandBody i s = .raised t) : exec i s = .next t := exec_of_raised h.1 (modeTakes_of_ready h.2 hi) hb

theorem exec_setPixel_ready {idx : BitVec 4} {i : Fin 8} (h : s.RunningIn .ready) (hi : idx.toNat = i.val)
    (r g b : Byte) : exec (.setPixel idx r g b) s = .next (s.withCur (s.cur.setColour i r g b)) :=
  exec_ready_done h (by simp) (by rw [commandBody, withIndex_eq hi])

theorem exec_setPixel_bad_index {idx : BitVec 4} (h : s.RunningIn .ready) (hi : 8 ≤ idx.toNat) (r g b : Byte) :
    exec (.setPixel idx r g b) s = .next (raiseFault (.indexOutOfRange idx) s) :=
  exec_ready_raised h (by simp) (by rw [commandBody, withIndex_bad hi])

theorem exec_setAll_ready (h : s.RunningIn .ready) (r g b : Byte) :
    exec (.setAll r g b) s = .next (s.withCur (s.cur.setAllColours r g b)) := exec_ready_done h (by simp) rfl

theorem exec_setBrt_ready {v : Binary64} (h : s.RunningIn .ready) (hv : inUnit v = true) :
    exec (.setBrt v) s = .next (s.withCur (s.cur.setAllBrts (convert v))) :=
  exec_ready_done h (by simp) (by rw [commandBody, withBrightness_ok hv])

theorem exec_setBrt_bad {v : Binary64} (h : s.RunningIn .ready) (hv : inUnit v = false) :
    exec (.setBrt v) s = .next (raiseFault (.invalidBrightness v) s) :=
  exec_ready_raised h (by simp) (by rw [commandBody, withBrightness_bad hv])

theorem exec_setPixBrt_ready {idx : BitVec 4} {i : Fin 8} {v : Binary64} (h : s.RunningIn .ready)
    (hi : idx.toNat = i.val) (hv : inUnit v = true) :
    exec (.setPixBrt idx v) s = .next (s.withCur (s.cur.setBrt i (convert v))) :=
  exec_ready_done h (by simp) (by rw [commandBody, withBrightness_ok hv, withIndex_eq hi])

theorem exec_setPixBrt_bad {idx : BitVec 4} {v : Binary64} (h : s.RunningIn .ready) (hv : inUnit v = false) :
    exec (.setPixBrt idx v) s = .next (raiseFault (.invalidBrightness v) s) :=
  exec_ready_raised h (by simp) (by rw [commandBody, withBrightness_bad hv])

theorem exec_setPixBrt_bad_index {idx : BitVec 4} {v : Binary64} (h : s.RunningIn .ready) (hv : inUnit v = true)
    (hi : 8 ≤ idx.toNat) : exec (.setPixBrt idx v) s = .next (raiseFault (.indexOutOfRange idx) s) :=
  exec_ready_raised h (by simp) (by rw [commandBody, withBrightness_ok hv, withIndex_bad hi])

theorem exec_clear_ready (h : s.RunningIn .ready) :
    exec .clear s = .next (s.withCur (s.cur.setAllColours 0 0 0)) := exec_ready_done h (by simp) rfl

end

/-- Settles O15. -/
theorem setPixelWritesColour : Obligations.SetPixelWritesColour := by
  intro s idx i r g b h hi
  refine ⟨_, exec_setPixel_ready h hi r g b, ?_⟩
  simp only [State.withCur_cur, Strip.get_setColour, if_true, Pixel.withColour_R, Pixel.withColour_G,
    Pixel.withColour_B, Pixel.withColour_BRT, true_and]
  exact ⟨fun j hj => if_neg hj.symm, rfl⟩

/-- Settles O16. -/
theorem setPixelIndexFault : Obligations.SetPixelIndexFault :=
  fun _ _ r g b h hi => ⟨exec_setPixel_bad_index h hi r g b, rfl, rfl⟩

/-- Settles O17. -/
theorem setAllWritesEveryColour : Obligations.SetAllWritesEveryColour := by
  intro s r g b h
  exact ⟨_, exec_setAll_ready h r g b, fun i => by simp, rfl⟩

/-- Settles O18. -/
theorem setBrtWritesEveryBrightness : Obligations.SetBrtWritesEveryBrightness := by
  intro s v h hv
  exact ⟨_, exec_setBrt_ready h hv, fun i => by simp, rfl⟩

/-- Settles O19. -/
theorem setBrtOutsideUnitFault : Obligations.SetBrtOutsideUnitFault :=
  fun _ _ h hv => ⟨exec_setBrt_bad h hv, rfl, rfl⟩

/-- Settles O20. -/
theorem setPixBrtWritesBrightness : Obligations.SetPixBrtWritesBrightness := by
  intro s idx i v h hi hv
  refine ⟨_, exec_setPixBrt_ready h hi hv, ?_⟩
  simp only [State.withCur_cur, Strip.get_setBrt, if_true, Pixel.withBrt_R, Pixel.withBrt_G,
    Pixel.withBrt_B, Pixel.withBrt_BRT, true_and]
  exact ⟨fun j hj => if_neg hj.symm, rfl⟩

/-- Settles O21: the brightness is checked first, so its fault needs nothing of the index. -/
theorem setPixBrtFaults : Obligations.SetPixBrtFaults :=
  fun _ _ _ h => ⟨fun hv => exec_setPixBrt_bad h hv, fun hv hi => exec_setPixBrt_bad_index h hv hi⟩

/-- Settles O22. -/
theorem clearBlackens : Obligations.ClearBlackens := by
  intro s h
  exact ⟨_, exec_clear_ready h, fun i => by simp [Pixel.Black], rfl⟩

/-- Settles O47. -/
theorem setCoeArms : Obligations.SetCoeArms :=
  fun _ h => ⟨exec_ready_done h (by simp) rfl, exec_ready_done h (by simp) rfl⟩

/-- Settles O39. -/
theorem showUnchangedDoesNothing : Obligations.ShowUnchangedDoesNothing :=
  fun _ h hc => exec_ready_done h (by simp) (showBody_unchanged hc)

/-! ### A chain of SETPIXEL is a SETALL (R60) -/

/-- The colour of each register of a list written. -/
def Strip.setColours (order : List (Fin 8)) (r g b : Byte) (c : Strip) : Strip :=
  order.foldl (fun c i => c.setColour i r g b) c

/-- A register of the list has the colour, once or many times written; another is as before. -/
theorem Strip.get_setColours (order : List (Fin 8)) (r g b : Byte) (c : Strip) (j : Fin 8) :
    (c.setColours order r g b).get j = if j ∈ order then (c.get j).withColour r g b else c.get j := by
  induction order generalizing c with
  | nil => simp [setColours]
  | cons i order ih =>
    rw [setColours, List.foldl_cons, ← setColours, ih, Strip.get_setColour]
    by_cases hij : i = j
    · subst hij; simp [Pixel.withColour]
    · simp [hij, Ne.symm hij]

theorem execChain_setPixels (order : List (Fin 8)) {s : State} (h : s.RunningIn .ready) (r g b : Byte) :
    execChain (order.map fun i => Instr.setPixel (BitVec.ofNat 4 i.val) r g b) s =
      .next (s.withCur (s.cur.setColours order r g b)) := by
  induction order generalizing s with
  | nil => rfl
  | cons i order ih =>
    have hi : (BitVec.ofNat 4 i.val).toNat = i.val := Nat.mod_eq_of_lt (by omega)
    rw [List.map_cons, execChain, exec_setPixel_ready h hi]
    exact ih h

/-- Settles O25: CLEAR and SETALL 0, 0, 0 have one pseudocode, and a chain that covers every register leaves no
register as it was. -/
theorem commandEquivalences : Obligations.CommandEquivalences := by
  refine ⟨fun s => rfl, fun s r g b order h hall => ?_⟩
  have hcur : s.cur.setColours order r g b = s.cur.setAllColours r g b :=
    Strip.ext_get fun j => by rw [Strip.get_setColours, if_pos (hall j), Strip.get_setAllColours]
  rw [execChain_setPixels order h, exec_setAll_ready h, hcur]

end Sys2Proof.Machine
end

-- Proofs about every step (10_state.md R21 to R25, 42_controller.md R84, 60_exceptions.md R109 to R117).
section
/-! PROOFS. What a command can leave behind, said once for each pseudocode, and what follows for every step: which
commands are refused, what a halt, the mode, the arm bit and the trace can do. -/

namespace Sys2Proof.Machine

/-! ### What each pseudocode can leave -/

/-- The attempt leaves `t`: it completed there, or it faulted there. -/
def Attempt.Leaves (a : Attempt) (t : State) : Prop := a = .done t ∨ a = .raised t

theorem Attempt.leaves_done {s t : State} : (Attempt.done s).Leaves t ↔ t = s := by simp [Leaves, eq_comm]
theorem Attempt.leaves_raised {s t : State} : (Attempt.raised s).Leaves t ↔ t = s := by simp [Leaves, eq_comm]

/-- The five setters of 40_pixel_store.md. -/
def Instr.IsSetter (i : Instr) : Prop :=
  (∃ idx r g b, i = .setPixel idx r g b) ∨ (∃ r g b, i = .setAll r g b) ∨ (∃ v, i = .setBrt v) ∨
    (∃ idx v, i = .setPixBrt idx v) ∨ i = .clear

/-- A command is a setter or one of the four of 42_controller.md. -/
theorem Instr.setter_or (i : Instr) :
    IsSetter i ∨ i = .setup ∨ i = .showCmd ∨ i = .close ∨ ∃ en, i = .setCoe en := by
  cases i <;> simp [IsSetter]

/-- The fault of a bad operand: the cause, and why the operand is one (R103, R105). -/
inductive BadOperand : FatalCause → Prop where
  | brightness {v : Binary64} (h : inUnit v = false) : BadOperand (.invalidBrightness v)
  | index {idx : BitVec 4} (h : 8 ≤ idx.toNat) : BadOperand (.indexOutOfRange idx)

/-- `t` is `s` with the pixel registers written, or with the fault of a bad operand taken. -/
def SetterLeaves (s t : State) : Prop := (∃ c, t = s.withCur c) ∨ ∃ cause, BadOperand cause ∧ t = raiseFault cause s

theorem withIndex_setter {idx : BitVec 4} {f : Fin 8 → Strip} {s t : State}
    (h : (withIndex idx (fun i s => .done (s.withCur (f i))) s).Leaves t) : SetterLeaves s t := by
  rcases Nat.lt_or_ge idx.toNat 8 with hi | hi
  · rw [withIndex_ok hi, Attempt.leaves_done] at h
    exact .inl ⟨_, h⟩
  · rw [withIndex_bad hi, Attempt.leaves_raised] at h
    exact .inr ⟨_, .index hi, h⟩

theorem withBrightness_setter {v : Binary64} {k : RawBrt → State → Attempt} {s t : State}
    (hk : ∀ n, (k n s).Leaves t → SetterLeaves s t) (h : (withBrightness v k s).Leaves t) : SetterLeaves s t := by
  cases hv : inUnit v with
  | true => rw [withBrightness_ok hv] at h; exact hk _ h
  | false =>
    rw [withBrightness_bad hv, Attempt.leaves_raised] at h
    exact .inr ⟨_, .brightness hv, h⟩

/-- All that a setter can leave (R71, R103, R105). -/
theorem setter_leaves {i : Instr} (hi : Instr.IsSetter i) {s t : State} (h : (commandBody i s).Leaves t) :
    SetterLeaves s t := by
  rcases hi with ⟨idx, r, g, b, rfl⟩ | ⟨r, g, b, rfl⟩ | ⟨v, rfl⟩ | ⟨idx, v, rfl⟩ | rfl <;> rw [commandBody] at h
  · exact withIndex_setter (f := fun i => s.cur.setColour i r g b) h
  · exact .inl ⟨_, Attempt.leaves_done.1 h⟩
  · exact withBrightness_setter (k := fun n s => .done (s.withCur (s.cur.setAllBrts n)))
      (fun n hn => .inl ⟨_, Attempt.leaves_done.1 hn⟩) h
  · exact withBrightness_setter (k := fun n => withIndex idx fun i s => .done (s.withCur (s.cur.setBrt i n)))
      (fun n hn => withIndex_setter (f := fun i => s.cur.setBrt i n) hn) h
  · exact .inl ⟨_, Attempt.leaves_done.1 h⟩

/-- All that SETUP can leave: both calls done, or its calls cut at the one that failed (R85, R99). -/
theorem setup_leaves {s t : State} (h : (setupBody s).Leaves t) :
    (s.NextCallsOk 2 ∧ t = (callsOk (setupCalls Config.setupOrder) s).withMode .ready) ∨
    ∃ before e after, setupCalls Config.setupOrder = before ++ e :: after ∧
      s.trace.length + before.length ∈ s.failing ∧ t = callFailed e (callsOk before s) := by
  rcases h with h | h
  · obtain ⟨u, hu, ht⟩ := Attempt.andThen_done_iff.1 h
    obtain ⟨rfl, hok⟩ := issueCalls_done hu
    exact .inl ⟨hok, (Attempt.done.inj ht).symm⟩
  · rcases Attempt.andThen_raised_iff.1 h with h | ⟨u, -, ht⟩
    · obtain ⟨before, e, after, hcalls, hin, -, ht⟩ := issueCalls_raised h
      exact .inr ⟨before, e, after, hcalls, hin, ht⟩
    · cases ht

/-- All that SHOW can leave: nothing, a whole frame committed, or a frame cut at the call that failed (R81, R86). -/
theorem show_leaves {s t : State} (h : (showBody s).Leaves t) :
    (s.cur = s.prev ∧ t = s) ∨
    (s.cur ≠ s.prev ∧ s.NextCallsOk 906 ∧ t = commit (callsOk (frame s.cur) s)) ∨
    (s.cur ≠ s.prev ∧ ∃ before e after, frame s.cur = before ++ e :: after ∧
      s.trace.length + before.length ∈ s.failing ∧ t = callFailed e (callsOk before s)) := by
  rcases h with h | h
  · rcases showBody_done h with hs | ⟨hc, ht, hok⟩
    · exact .inl hs
    · rw [frame_length] at hok
      exact .inr (.inl ⟨hc, hok, ht⟩)
  · exact .inr (.inr (showBody_raised h))

/-- All that CLOSE can leave, in terms of the SHOW in it: cut inside that SHOW, cut at the release, or closed (R87). -/
theorem close_leaves {s t : State} (h : (closeBody s).Leaves t) :
    showBody (clearColours s) = .raised t ∨
    ∃ u, showBody (clearColours s) = .done u ∧
      ((u.trace.length ∈ u.failing ∧ t = callFailed .rel u) ∨
        (u.trace.length ∉ u.failing ∧ t = (callOk .rel u).withMode .closed)) := by
  rcases h with h | h
  · obtain ⟨u, hu, hf, ht⟩ := closeBody_done h
    exact .inr ⟨u, hu, .inr ⟨hf, ht⟩⟩
  · rcases closeBody_raised h with h | ⟨u, hu, hf, ht⟩
    · exact .inl h
    · exact .inr ⟨u, hu, .inl ⟨hf, ht⟩⟩

/-- A halted block does nothing on an interrupt (R113 (c)). -/
theorem takeInterrupt_halted {s : State} (h : s.halt ≠ .running) : takeInterrupt s = .next s := by
  unfold takeInterrupt
  split <;> simp_all

/-- All that the interrupt can do, with what let it through (R111, R113 (c), R116). -/
theorem takeInterrupt_leaves {s t : State} (h : takeInterrupt s = .next t) :
    (s.halt ≠ .running ∧ t = s) ∨
    (s.halt = .running ∧ s.coeArmed = true ∧ s.mode ≠ .uninitialized ∧
      (closeBody s = .raised t ∨ ∃ u, closeBody s = .done u ∧ t = u.withHalt (.exited Config.exitInt.val))) := by
  by_cases hr : s.halt = .running
  · rcases takeInterrupt_next h with ⟨hh, -⟩ | hc
    · exact absurd hr hh
    · simp only [takeInterrupt, hr] at h
      split_ifs at h with harmed hmode
      exact .inr ⟨hr, harmed, (Mode.takesClose_iff _).1 hmode, hc⟩
  · rw [takeInterrupt_halted hr] at h
    cases h
    exact .inl ⟨hr, rfl⟩

/-! ### Steps and inputs (R25, R39, R55, R121) -/

/-- Settles O7. -/
theorem stepRunsDecodedCommand : Obligations.StepRunsDecodedCommand := by
  intro s w rest i hi hd
  simp only [step, takeInput_cons hi, hd]
  rfl

/-- A bundle with a reserved opcode is rejected, its opcode named (R55). -/
theorem decode_reserved {w : Bundle} (h : opField w = 0 ∨ 0xA ≤ opField w) :
    decode w = .error (.reservedOpcode (opField w)) := by
  obtain ⟨e, he⟩ := decode_error_iff.2 h
  rw [he]
  unfold decode at he
  split at he <;> cases he
  rfl

/-- Settles O8. -/
theorem reservedOpcodeRefused : Obligations.ReservedOpcodeRefused := by
  intro s w rest hr hi hop
  have hr' : (s.withInputs rest).halt = .running := hr
  simp only [step, takeInput_cons hi, decode_reserved hop, rejectBundle, hr']

/-- Settles O9. -/
theorem idleChangesNothing : Obligations.IdleChangesNothing := by
  intro s h
  simp only [step, takeInput_nil h]

/-- Settles O11. -/
theorem resetLeavesControl : Obligations.ResetLeavesControl :=
  fun _ _ _ h => ⟨_, step_reset h, rfl, rfl, rfl⟩

/-- Settles O12. -/
theorem resetStartsNewRun : Obligations.ResetStartsNewRun := by
  intro s failing rest h
  refine ⟨_, step_reset h, rfl, fun l => ?_, rfl⟩
  rw [State.line_resetTo]
  exact ⟨rfl, rfl⟩

theorem step_interrupt {s : State} {rest : List Input} (h : s.inputs = .interrupt :: rest) :
    step s = takeInterrupt (s.withInputs rest) := by
  simp only [step, takeInput_cons h]

/-- Settles O49. -/
theorem unarmedOrHaltedInterrupt : Obligations.UnarmedOrHaltedInterrupt := by
  intro s rest h
  rw [step_interrupt h]
  refine ⟨fun hr ha => ?_, fun hh => takeInterrupt_halted hh⟩
  have hr' : (s.withInputs rest).halt = .running := hr
  have ha' : (s.withInputs rest).coeArmed = false := ha
  simp only [takeInterrupt, hr', ha']
  rfl

/-! ### Which commands are refused (R84) -/

/-- A call the contract covers is not refused. -/
theorem issueCall_not_refused {e : Event} {s : State} (hu : uncovered e s = none) (r : Refusal) :
    issueCall e s ≠ .refused r := by
  by_cases hf : s.trace.length ∈ s.failing
  · rw [issueCall_failed hu hf]; simp
  · rw [issueCall_ok hu hf]; simp

theorem Attempt.andThen_not_refused {a : Attempt} {k : State → Attempt} {r : Refusal} (ha : a ≠ .refused r)
    (hk : ∀ u, a = .done u → k u ≠ .refused r) : a.andThen k ≠ .refused r := by
  cases a with
  | done u => exact hk u rfl
  | raised u => simp
  | refused r' => exact ha

/-- A SHOW is refused for one reason only, a write to a line that is not configured (R95). -/
theorem showBody_refused {s : State} {r : Refusal} (h : showBody s = .refused r) : ∃ l, r = .lineNotConfigured l := by
  by_cases hc : s.cur = s.prev
  · rw [showBody_unchanged hc] at h; cases h
  · by_contra hr
    rw [showBody_changed hc] at h
    exact Attempt.andThen_not_refused (fun hi => hr (issueCalls_refused hi)) (fun _ _ => by simp) h

theorem closeBody_refused {s : State} {r : Refusal} (h : closeBody s = .refused r) :
    showBody (clearColours s) = .refused r := by
  by_contra hs
  have hrel : (showBody (clearColours s)).andThen (issueCall .rel) ≠ .refused r :=
    Attempt.andThen_not_refused hs fun _ _ => issueCall_not_refused rfl r
  exact Attempt.andThen_not_refused hrel (fun _ _ => by simp) h

theorem setupBody_not_refused (s : State) (r : Refusal) : setupBody s ≠ .refused r := by
  rw [setupBody_eq]
  refine Attempt.andThen_not_refused (Attempt.andThen_not_refused ?_ ?_) fun _ _ => by simp
  · exact issueCall_not_refused rfl r
  · exact fun _ _ => issueCall_not_refused rfl r

theorem withIndex_not_refused {idx : BitVec 4} {k : Fin 8 → State → Attempt} {s : State} {r : Refusal}
    (hk : ∀ i, k i s ≠ .refused r) : withIndex idx k s ≠ .refused r := by
  rcases Nat.lt_or_ge idx.toNat 8 with hi | hi
  · rw [withIndex_ok hi]; exact hk _
  · rw [withIndex_bad hi]; simp

theorem withBrightness_not_refused {v : Binary64} {k : RawBrt → State → Attempt} {s : State} {r : Refusal}
    (hk : ∀ n, k n s ≠ .refused r) : withBrightness v k s ≠ .refused r := by
  cases hv : inUnit v with
  | true => rw [withBrightness_ok hv]; exact hk _
  | false => rw [withBrightness_bad hv]; simp

theorem setter_not_refused {i : Instr} (hi : Instr.IsSetter i) (s : State) (r : Refusal) :
    commandBody i s ≠ .refused r := by
  rcases hi with ⟨idx, r, g, b, rfl⟩ | ⟨r, g, b, rfl⟩ | ⟨v, rfl⟩ | ⟨idx, v, rfl⟩ | rfl <;> rw [commandBody]
  · exact withIndex_not_refused fun _ => by simp
  · simp
  · exact withBrightness_not_refused fun _ => by simp
  · exact withBrightness_not_refused fun _ => withIndex_not_refused fun _ => by simp
  · simp

/-- Only the SHOW in a pseudocode can be refused. -/
theorem commandBody_refused {i : Instr} {s : State} {r : Refusal} (h : commandBody i s = .refused r) :
    (i = .showCmd ∧ showBody s = .refused r) ∨ (i = .close ∧ showBody (clearColours s) = .refused r) := by
  rcases Instr.setter_or i with hi | rfl | rfl | rfl | ⟨en, rfl⟩
  · exact absurd h (setter_not_refused hi s r)
  · exact absurd h (setupBody_not_refused s r)
  · exact .inl ⟨rfl, h⟩
  · exact .inr ⟨rfl, closeBody_refused h⟩
  · cases h

/-- Settles O50: a mode that takes the command runs its pseudocode, and no pseudocode names the mode. -/
theorem refusedExactlyInWrongMode : Obligations.RefusedExactlyInWrongMode := by
  intro i s hr
  refine ⟨fun hm => by rw [exec_eq_accept, accept_wrong_mode _ hr hm], fun h => ?_⟩
  by_contra hm
  rw [exec_taken hr (by simpa using hm)] at h
  cases hb : commandBody i s with
  | done t => rw [hb] at h; cases h
  | raised t => rw [hb] at h; cases h
  | refused r =>
    rw [hb, Attempt.outcome_refused, Host.Outcome.refused.injEq] at h
    have hl : ∃ l, r = .lineNotConfigured l := by
      rcases commandBody_refused hb with ⟨-, hs⟩ | ⟨-, hs⟩ <;> exact showBody_refused hs
    obtain ⟨l, rfl⟩ := hl
    cases h

/-- An attempt that is not refused leaves a next state. -/
theorem Attempt.outcome_next_of_not_refused {a : Attempt} (h : ∀ r, a ≠ .refused r) : ∃ t, a.outcome = .next t := by
  cases a with
  | done t => exact ⟨t, rfl⟩
  | raised t => exact ⟨t, rfl⟩
  | refused r => exact absurd rfl (h r)

/-- Writes to configured lines are not refused, whatever fails. -/
theorem issueCalls_writes_not_refused {es : List Event} (h : AllWrites es) {s : State}
    (hc : ∀ l, (s.line l).configured = true) (r : Refusal) : issueCalls es s ≠ .refused r := by
  induction es generalizing s with
  | nil => simp
  | cons e es ih =>
    obtain ⟨l, b, rfl⟩ := h e (by simp)
    rw [issueCalls_cons]
    have hu := uncovered_wr (hc l) b
    refine Attempt.andThen_not_refused (issueCall_not_refused hu r) fun u hdone => ?_
    obtain ⟨-, -, rfl⟩ := issueCall_done hdone
    refine ih (fun e he => h e (by simp [he])) fun m => ?_
    rw [callOk_line]
    by_cases hm : m = l
    · subst hm; rw [LineState.after_wr_same]; exact hc m
    · rw [LineState.after_wr_other hm]; exact hc m

theorem showBody_not_refused {s : State} (hc : s.cur ≠ s.prev → ∀ l, (s.line l).configured = true) (r : Refusal) :
    showBody s ≠ .refused r := by
  by_cases h : s.cur = s.prev
  · rw [showBody_unchanged h]; simp
  · rw [showBody_changed h]
    exact Attempt.andThen_not_refused (issueCalls_writes_not_refused (frame_writes _) (hc h) r) fun _ _ => by simp

/-- Clearing a strip that is black already changes nothing. -/
theorem Strip.setAllColours_of_black {c : Strip} (h : ∀ i, (c.get i).Black) : c.setAllColours 0 0 0 = c := by
  refine Strip.ext_get fun i => ?_
  obtain ⟨hR, hG, hB⟩ := h i
  cases hp : c.get i
  simp_all [Pixel.withColour]

/-- In a closed block the clear of CLOSE changes nothing, and no frame is due (R30 (c), R88). -/
theorem State.Inv.clearColours_closed {s : State} (h : s.Inv) (hr : s.halt = .running) (hm : s.mode = .closed) :
    clearColours s = s ∧ s.cur = s.prev := by
  obtain ⟨hflushed, hblack⟩ := h.closed_is_flushed_black hm hr
  refine ⟨?_, hflushed⟩
  rw [clearColours, Strip.setAllColours_of_black hblack]
  rfl

/-- In mode Ready a block that runs has both lines configured. -/
theorem State.Inv.configured_ready {s : State} (h : s.Inv) (hr : s.halt = .running) (hm : s.mode = .ready) (l : Line) :
    (s.line l).configured = true := by rw [h.configured_iff_ready hr l, hm]; rfl

/-- Settles O51: where the mode takes a SHOW or a CLOSE with a frame due, the lines are configured. -/
theorem takenCommandsNeverRefused : Obligations.TakenCommandsNeverRefused := by
  intro i s hinv hm
  by_cases hr : s.halt = .running
  · rw [exec_taken hr hm]
    refine Attempt.outcome_next_of_not_refused fun r hb => ?_
    rcases commandBody_refused hb with ⟨rfl, hs⟩ | ⟨rfl, hs⟩
    · have hready : s.mode = .ready := by rwa [modeTakes_eq, Mode.isReady_iff] at hm
      exact showBody_not_refused (fun _ => hinv.configured_ready hr hready) r hs
    · cases hmode : s.mode with
      | uninitialized => rw [hmode] at hm; cases hm
      | ready =>
        refine showBody_not_refused (fun _ l => ?_) r hs
        rw [clearColours_line]
        exact hinv.configured_ready hr hmode l
      | closed =>
        obtain ⟨hclear, hflushed⟩ := hinv.clearColours_closed hr hmode
        rw [hclear, showBody_unchanged hflushed] at hs
        cases hs
  · exact ⟨s, exec_halted hr⟩

/-! ### The halt (R22, R112, R115) -/

/-- Settles O52: every arm of the step passes through a gate that a halted block does not open. -/
theorem haltIsSticky : Obligations.HaltIsSticky := by
  intro s hh hnr
  cases hi : s.inputs with
  | nil => rw [idleChangesNothing s hi, List.tail_nil, ← hi]
  | cons input rest =>
    have hh' : (s.withInputs rest).halt ≠ .running := hh
    have hnext : ({ s with inputs := (input :: rest).tail } : State) = s.withInputs rest := rfl
    rw [hnext]
    cases input with
    | reset failing => exact absurd hi (hnr failing rest)
    | interrupt => rw [step_interrupt hi, takeInterrupt_halted hh']
    | command w =>
      simp only [step, takeInput_cons hi]
      cases hd : decode w with
      | ok i => exact exec_halted hh'
      | error e => cases e; cases hs : s.halt <;> simp_all [rejectBundle]

/-- A completed CLOSE leaves a running block running; one that faults halts. -/
theorem closeBody_done_halt {s t : State} (h : closeBody s = .done t) : t.halt = s.halt ∧ t.mode = .closed := by
  obtain ⟨u, hu, -, rfl⟩ := closeBody_done h
  rcases showBody_done hu with ⟨-, rfl⟩ | ⟨-, rfl, -⟩ <;> exact ⟨rfl, rfl⟩

theorem closeBody_raised_halt {s t : State} (h : closeBody s = .raised t) : t.halt ≠ .running ∧ t.mode = s.mode := by
  rcases closeBody_raised h with h | ⟨u, hu, -, rfl⟩
  · obtain ⟨-, before, e, after, -, -, rfl⟩ := showBody_raised h
    exact ⟨by simp, by simp⟩
  · rcases showBody_done hu with ⟨-, rfl⟩ | ⟨-, rfl, -⟩ <;> exact ⟨by simp, rfl⟩

/-- Settles O48: the interrupt runs the pseudocode of CLOSE, and its end tells a completed one from a faulted one. -/
theorem armedInterruptClosesAndExits : Obligations.ArmedInterruptClosesAndExits := by
  intro s u rest hi hr ha hclose
  have hr' : (s.withInputs rest).halt = .running := hr
  have ha' : (s.withInputs rest).coeArmed = true := ha
  rcases exec_next (s := s.withInputs rest) hclose with ⟨hh, -⟩ | ⟨-, hm, hb⟩
  · exact absurd hr' hh
  have hm' : (s.withInputs rest).mode.takesClose = true := by rwa [modeTakes_eq] at hm
  have hstep : step s = exitAfter (closeBody (s.withInputs rest)) := by
    rw [step_interrupt hi]
    simp only [takeInterrupt, hr', ha', hm', if_true]
  have hb : (closeBody (s.withInputs rest)).Leaves u := hb
  refine ⟨fun hu => ?_, fun hu => ?_, PNat.ne_zero _⟩
  · rcases hb with hb | hb
    · rw [hstep, hb]; rfl
    · exact absurd hu (closeBody_raised_halt hb).1
  · rcases hb with hb | hb
    · exact absurd ((closeBody_done_halt hb).1.trans hr') hu
    · rw [hstep, hb]; rfl

/-! ### The setters (R16, R71) -/

/-- Settles O23: a setter writes the pixel registers or takes a fault, never both. -/
theorem settersDoNoOutput : Obligations.SettersDoNoOutput := by
  intro s t i hi h
  rcases exec_next h with ⟨-, rfl⟩ | ⟨-, -, hb⟩
  · exact ⟨rfl, fun _ => rfl⟩
  · rcases setter_leaves hi hb with ⟨c, rfl⟩ | ⟨cause, -, rfl⟩
    · exact ⟨rfl, fun hh => absurd rfl hh⟩
    · exact ⟨rfl, fun _ => rfl⟩

/-- A SHOW leaves `cur` alone, whatever becomes of its frame. -/
theorem show_leaves_cur {s t : State} (h : (showBody s).Leaves t) : t.cur = s.cur := by
  rcases show_leaves h with ⟨-, rfl⟩ | ⟨-, -, rfl⟩ | ⟨-, before, e, after, -, -, rfl⟩ <;> simp

/-- CLOSE leaves `cur` blackened, whatever becomes of its frame. -/
theorem close_leaves_cur {s t : State} (h : (closeBody s).Leaves t) : t.cur = (clearColours s).cur := by
  rcases close_leaves h with h | ⟨u, hu, ⟨-, rfl⟩ | ⟨-, rfl⟩⟩
  · exact show_leaves_cur (.inr h)
  all_goals exact (show_leaves_cur (.inl hu) : u.cur = _)

/-- SETUP leaves `cur` alone. -/
theorem setup_leaves_cur {s t : State} (h : (setupBody s).Leaves t) : t.cur = s.cur := by
  rcases setup_leaves h with ⟨-, rfl⟩ | ⟨before, e, after, -, -, rfl⟩ <;> simp

/-- Settles O24: what the seven other commands leave in `cur`, brightness by brightness. -/
theorem brightnessWrittenByBrightnessCommands : Obligations.BrightnessWrittenByBrightnessCommands := by
  intro s t i j hbrt hpix h
  rcases exec_next h with ⟨-, rfl⟩ | ⟨-, -, hb⟩
  · rfl
  have hb : (commandBody i s).Leaves t := hb
  cases i with
  | setup => rw [setup_leaves_cur hb]
  | setPixel idx r g b =>
    rw [commandBody] at hb
    rcases Nat.lt_or_ge idx.toNat 8 with hi | hi
    · rw [withIndex_ok hi, Attempt.leaves_done] at hb
      rw [hb, State.withCur_cur, Strip.get_setColour]
      split_ifs with hj
      · rw [hj, Pixel.withColour_BRT]
      · rfl
    · rw [withIndex_bad hi, Attempt.leaves_raised] at hb
      rw [hb, raiseFault_cur]
  | setAll r g b =>
    rw [commandBody, Attempt.leaves_done] at hb
    rw [hb, writeAllColours, State.withCur_cur, Strip.get_setAllColours, Pixel.withColour_BRT]
  | setBrt v => exact absurd rfl (hbrt v)
  | setPixBrt idx v => exact absurd rfl (hpix idx v)
  | clear =>
    rw [commandBody, Attempt.leaves_done] at hb
    rw [hb, clearColours_cur, Strip.get_setAllColours, Pixel.withColour_BRT]
  | showCmd => rw [show_leaves_cur hb]
  | close => rw [close_leaves_cur hb, clearColours_cur, Strip.get_setAllColours, Pixel.withColour_BRT]
  | setCoe en => cases en <;> cases Attempt.leaves_done.1 hb <;> rfl

/-! ### The mode and the arm bit (R21, R23, R117) -/

/-- From `s` to `t` the mode is as before, or moves one step forward. -/
def ModeMoves (s t : State) : Prop :=
  t.mode = s.mode ∨ (s.mode = .uninitialized ∧ t.mode = .ready) ∨ (s.mode = .ready ∧ t.mode = .closed)

/-- From every mode but Uninitialized the mode Closed is as before or one step forward. -/
theorem ModeMoves.to_closed {s t : State} (hs : s.mode ≠ .uninitialized) (ht : t.mode = .closed) : ModeMoves s t := by
  cases h : s.mode with
  | uninitialized => exact absurd h hs
  | ready => exact .inr (.inr ⟨h, ht⟩)
  | closed => exact .inl (ht.trans h.symm)

theorem close_mode {s t : State} (hs : s.mode ≠ .uninitialized) (h : (closeBody s).Leaves t) : ModeMoves s t := by
  rcases h with h | h
  · exact .to_closed hs (closeBody_done_halt h).2
  · exact .inl (closeBody_raised_halt h).2

theorem SetterLeaves.mode_coeArmed_trace {s t : State} (h : SetterLeaves s t) :
    t.mode = s.mode ∧ t.coeArmed = s.coeArmed ∧ t.trace = s.trace := by
  rcases h with ⟨c, rfl⟩ | ⟨cause, -, rfl⟩ <;> exact ⟨rfl, rfl, rfl⟩

theorem exec_mode {i : Instr} {s t : State} (h : exec i s = .next t) : ModeMoves s t := by
  rcases exec_next h with ⟨-, rfl⟩ | ⟨-, hm, hb⟩
  · exact .inl rfl
  rcases Instr.setter_or i with hi | rfl | rfl | rfl | ⟨en, rfl⟩
  · exact .inl (setter_leaves hi hb).mode_coeArmed_trace.1
  · rw [modeTakes_eq, Mode.isUninitialized_iff] at hm
    rcases setup_leaves hb with ⟨-, rfl⟩ | ⟨before, e, after, -, -, rfl⟩
    · exact .inr (.inl ⟨hm, rfl⟩)
    · exact .inl (by simp)
  · rcases show_leaves hb with ⟨-, rfl⟩ | ⟨-, -, rfl⟩ | ⟨-, before, e, after, -, -, rfl⟩ <;> exact .inl (by simp)
  · rw [modeTakes_eq, Mode.takesClose_iff] at hm
    exact close_mode hm hb
  · cases en <;> cases Attempt.leaves_done.1 hb <;> exact .inl rfl

theorem takeInterrupt_mode {s t : State} (h : takeInterrupt s = .next t) : ModeMoves s t := by
  rcases takeInterrupt_leaves h with ⟨-, rfl⟩ | ⟨-, -, hm, hc | ⟨u, hc, rfl⟩⟩
  · exact .inl rfl
  · exact close_mode hm (.inr hc)
  · exact (close_mode hm (.inl hc) : ModeMoves s u)

/-- Settles O53. -/
theorem modeTransitions : Obligations.ModeTransitions := by
  intro s t hnr h
  rcases step_next_cases hnr h with ⟨-, rfl⟩ | ⟨rest, -, h⟩ | ⟨w, rest, i, -, -, h⟩ | ⟨w, rest, e, -, -, h⟩
  · exact .inl rfl
  · exact (takeInterrupt_mode h : ModeMoves (s.withInputs rest) t)
  · exact (exec_mode h : ModeMoves (s.withInputs rest) t)
  · obtain ⟨-, rfl⟩ := rejectBundle_next h
    exact .inl rfl

theorem show_coeArmed {s t : State} (h : (showBody s).Leaves t) : t.coeArmed = s.coeArmed := by
  rcases show_leaves h with ⟨-, rfl⟩ | ⟨-, -, rfl⟩ | ⟨-, before, e, after, -, -, rfl⟩ <;> simp

theorem close_coeArmed {s t : State} (h : (closeBody s).Leaves t) : t.coeArmed = s.coeArmed := by
  rcases close_leaves h with h | ⟨u, hu, ⟨-, rfl⟩ | ⟨-, rfl⟩⟩
  · exact (show_coeArmed (.inr h) : t.coeArmed = (clearColours s).coeArmed)
  all_goals exact (show_coeArmed (.inl hu) : u.coeArmed = (clearColours s).coeArmed)

/-- Only SETCOE 1 changes the arm bit, and it sets it (R23). -/
theorem exec_coeArmed {i : Instr} {s t : State} (h : exec i s = .next t) :
    t.coeArmed = s.coeArmed ∨ (t.coeArmed = true ∧ i = .setCoe true) := by
  rcases exec_next h with ⟨-, rfl⟩ | ⟨-, -, hb⟩
  · exact .inl rfl
  rcases Instr.setter_or i with hi | rfl | rfl | rfl | ⟨en, rfl⟩
  · exact .inl (setter_leaves hi hb).mode_coeArmed_trace.2.1
  · rcases setup_leaves hb with ⟨-, rfl⟩ | ⟨before, e, after, -, -, rfl⟩ <;> exact .inl (by simp)
  · exact .inl (show_coeArmed hb)
  · exact .inl (close_coeArmed hb)
  · cases Attempt.leaves_done.1 hb
    cases en with
    | false => exact .inl rfl
    | true => exact .inr ⟨rfl, rfl⟩

/-- Settles O54. -/
theorem coeArmedOnlySet : Obligations.CoeArmedOnlySet := by
  intro s t hnr h
  rcases step_next_cases hnr h with ⟨-, rfl⟩ | ⟨rest, -, h⟩ | ⟨w, rest, i, hi, hd, h⟩ | ⟨w, rest, e, -, -, h⟩
  · exact .inl rfl
  · rcases takeInterrupt_leaves h with ⟨-, rfl⟩ | ⟨-, -, -, hc | ⟨u, hc, rfl⟩⟩
    · exact .inl rfl
    · exact .inl (close_coeArmed (.inr hc) : t.coeArmed = (s.withInputs rest).coeArmed)
    · exact .inl (close_coeArmed (.inl hc) : u.coeArmed = (s.withInputs rest).coeArmed)
  · rcases exec_coeArmed h with hc | ⟨hc, rfl⟩
    · exact .inl hc
    · exact .inr ⟨hc, w, rest, hi, hd⟩
  · obtain ⟨-, rfl⟩ := rejectBundle_next h
    exact .inl rfl

/-! ### What may append an event (R3, R33, R43) -/

theorem setup_trace {s t : State} (h : (setupBody s).Leaves t) :
    ∃ es, t.trace = s.trace ++ es ∧ es <+: setupCalls Config.setupOrder := by
  rcases setup_leaves h with ⟨-, rfl⟩ | ⟨before, e, after, hcalls, -, rfl⟩
  · exact ⟨_, rfl, List.prefix_rfl⟩
  · exact ⟨before ++ [e], by simp, after, by simp [hcalls]⟩

theorem show_trace {s t : State} (h : (showBody s).Leaves t) :
    ∃ es, t.trace = s.trace ++ es ∧ es <+: frame s.cur := by
  rcases show_leaves h with ⟨-, rfl⟩ | ⟨-, -, rfl⟩ | ⟨-, before, e, after, hframe, -, rfl⟩
  · exact ⟨[], by simp, List.nil_prefix⟩
  · exact ⟨_, rfl, List.prefix_rfl⟩
  · exact ⟨before ++ [e], by simp, after, by simp [hframe]⟩

/-- The SHOW of a CLOSE that completes sent nothing or one whole frame of the blackened strip. -/
theorem close_show_trace {s u : State} (h : showBody (clearColours s) = .done u) :
    u.trace = s.trace ∨ u.trace = s.trace ++ frame (s.cur.setAllColours 0 0 0) := by
  rcases showBody_done h with ⟨-, rfl⟩ | ⟨-, rfl, -⟩
  · exact .inl rfl
  · exact .inr rfl

theorem close_trace {s t : State} (h : (closeBody s).Leaves t) :
    ∃ es, t.trace = s.trace ++ es ∧ (es = [.rel] ∨ es <+: frame (s.cur.setAllColours 0 0 0) ++ [.rel]) := by
  rcases close_leaves h with h | ⟨u, hu, hend⟩
  · obtain ⟨es, htrace, hes⟩ := show_trace (.inr h)
    exact ⟨es, htrace, .inr (hes.trans (List.prefix_append _ _))⟩
  · have ht : t.trace = u.trace ++ [.rel] := by rcases hend with ⟨-, rfl⟩ | ⟨-, rfl⟩ <;> simp
    rcases close_show_trace hu with htrace | htrace
    · exact ⟨[.rel], by rw [ht, htrace], .inl rfl⟩
    · exact ⟨_, by rw [ht, htrace, List.append_assoc], .inr List.prefix_rfl⟩

/-- All that a command can append, and which one it then was. -/
theorem exec_trace {i : Instr} {s t : State} (h : exec i s = .next t) :
    ∃ es, t.trace = s.trace ++ es ∧
      (es ≠ [] →
        (i = .setup ∧ es <+: setupCalls Config.setupOrder) ∨ (i = .showCmd ∧ es <+: frame s.cur) ∨
        (i = .close ∧ (es = [.rel] ∨ es <+: frame (s.cur.setAllColours 0 0 0) ++ [.rel]))) := by
  rcases exec_next h with ⟨-, rfl⟩ | ⟨-, -, hb⟩
  · exact ⟨[], by simp, fun hne => absurd rfl hne⟩
  rcases Instr.setter_or i with hi | rfl | rfl | rfl | ⟨en, rfl⟩
  · exact ⟨[], by rw [(setter_leaves hi hb).mode_coeArmed_trace.2.2, List.append_nil], fun hne => absurd rfl hne⟩
  · obtain ⟨es, htrace, hes⟩ := setup_trace hb
    exact ⟨es, htrace, fun _ => .inl ⟨rfl, hes⟩⟩
  · obtain ⟨es, htrace, hes⟩ := show_trace hb
    exact ⟨es, htrace, fun _ => .inr (.inl ⟨rfl, hes⟩)⟩
  · obtain ⟨es, htrace, hes⟩ := close_trace hb
    exact ⟨es, htrace, fun _ => .inr (.inr ⟨rfl, hes⟩)⟩
  · exact ⟨[], by cases en <;> cases Attempt.leaves_done.1 hb <;> simp, fun hne => absurd rfl hne⟩

/-- The interrupt appends what CLOSE does, and only an armed one. -/
theorem takeInterrupt_trace {s t : State} (h : takeInterrupt s = .next t) :
    ∃ es, t.trace = s.trace ++ es ∧
      (es ≠ [] → s.coeArmed = true ∧ (es = [.rel] ∨ es <+: frame (s.cur.setAllColours 0 0 0) ++ [.rel])) := by
  rcases takeInterrupt_leaves h with ⟨-, rfl⟩ | ⟨-, ha, -, hc | ⟨u, hc, rfl⟩⟩
  · exact ⟨[], by simp, fun hne => absurd rfl hne⟩
  · obtain ⟨es, htrace, hes⟩ := close_trace (.inr hc)
    exact ⟨es, htrace, fun _ => ⟨ha, hes⟩⟩
  · obtain ⟨es, htrace, hes⟩ := close_trace (.inl hc)
    exact ⟨es, htrace, fun _ => ⟨ha, hes⟩⟩

/-- Settles O56: `exec_trace` and `takeInterrupt_trace` say what each input appends. -/
theorem lineOutputOnlyFromFourSources : Obligations.LineOutputOnlyFromFourSources := by
  intro s t hnr h
  rcases step_next_cases hnr h with ⟨-, rfl⟩ | ⟨rest, hi, h⟩ | ⟨w, rest, i, hi, hd, h⟩ | ⟨w, rest, e, -, -, h⟩
  · exact ⟨[], by simp, fun hne => absurd rfl hne⟩
  · obtain ⟨es, htrace, hes⟩ := takeInterrupt_trace h
    refine ⟨es, htrace, fun hne => .inr (.inr ?_)⟩
    obtain ⟨ha, hes'⟩ := hes hne
    exact ⟨.inr ⟨rest, hi, ha⟩, hes'⟩
  · obtain ⟨es, htrace, hes⟩ := exec_trace h
    refine ⟨es, htrace, fun hne => ?_⟩
    rcases hes hne with ⟨rfl, hes'⟩ | ⟨rfl, hes'⟩ | ⟨rfl, hes'⟩
    · exact .inl ⟨w, rest, hi, hd, hes'⟩
    · exact .inr (.inl ⟨w, rest, hi, hd, hes'⟩)
    · exact .inr (.inr ⟨.inl ⟨w, rest, hi, hd⟩, hes'⟩)
  · obtain ⟨-, rfl⟩ := rejectBundle_next h
    exact ⟨[], by simp, fun hne => absurd rfl hne⟩

end Sys2Proof.Machine
end

-- Proofs of the invariant (10_state.md R30): it holds after reset, every step keeps it, every run meets it.
section
/-! PROOFS. 10_state.md R30 with the driver's contract: `State.Inv` is kept by each thing a command can leave (a
setter's write or fault, a failed call, a frame, a release), so by every command, every step and every run. -/

namespace Sys2Proof.Machine

/-! ### What each change of the state keeps -/

/-- The invariant does not speak of the inputs to come. -/
theorem State.Inv.withInputs {s : State} (h : s.Inv) (rest : List Input) : (s.withInputs rest).Inv where
  closed_is_flushed_black := h.closed_is_flushed_black
  armed_not_uninitialized := h.armed_not_uninitialized
  uninitialized_pixels := h.uninitialized_pixels
  uninitialized_trace := h.uninitialized_trace
  uninitialized_running_trace := h.uninitialized_running_trace
  configured_iff_ready hr l := by rw [State.line_withInputs]; exact h.configured_iff_ready hr l
  level_is_last_write hr l := by rw [State.line_withInputs]; exact h.level_is_last_write hr l
  lines_rest_low hr := by simpa only [State.line_withInputs] using h.lines_rest_low hr
  prev_is_last_frame := h.prev_is_last_frame
  no_past_failure := h.no_past_failure
  io_failure_is_last := h.io_failure_is_last
  recorded_brightness_is_bad := h.recorded_brightness_is_bad
  recorded_index_is_bad := h.recorded_index_is_bad
  exited_is_closed := h.exited_is_closed

/-- After reset the invariant holds, from whatever state (R27 to R29). -/
theorem inv_resetTo (failing : List Nat) (s : State) : (resetTo failing s).Inv where
  closed_is_flushed_black h := by cases h
  armed_not_uninitialized h := by cases h
  uninitialized_pixels _ := ⟨rfl, rfl⟩
  uninitialized_trace _ _ he := by cases he
  uninitialized_running_trace _ _ := rfl
  configured_iff_ready _ l := by rw [State.line_resetTo]; rfl
  level_is_last_write _ l := by rw [State.line_resetTo]; rfl
  lines_rest_low _ := .inl fun l => by rw [State.line_resetTo]; rfl
  prev_is_last_frame := prev_is_last_frame_of_carried (.inl ⟨rfl, fun _ he => by cases he⟩)
  no_past_failure _ n _ := Nat.zero_le n
  io_failure_is_last n h := by cases h
  recorded_brightness_is_bad v h := by cases h
  recorded_index_is_bad i h := by cases h
  exited_is_closed n h := by cases h

/-- Writing the pixel registers of a block in mode Ready keeps the invariant. -/
theorem State.Inv.withCur {s : State} (h : s.Inv) (hr : s.halt = .running) (hm : s.mode = .ready) (c : Strip) :
    (s.withCur c).Inv where
  closed_is_flushed_black hc := by simp [hm] at hc
  armed_not_uninitialized := h.armed_not_uninitialized
  uninitialized_pixels hu := by simp [hm] at hu
  uninitialized_trace hu := by simp [hm] at hu
  uninitialized_running_trace hu := by simp [hm] at hu
  configured_iff_ready _ l := by rw [State.line_withCur]; exact h.configured_iff_ready hr l
  level_is_last_write _ l := by rw [State.line_withCur]; exact h.level_is_last_write hr l
  lines_rest_low _ := by simpa only [State.line_withCur] using h.lines_rest_low hr
  prev_is_last_frame := prev_is_last_frame_of_carried (h.carried_of_running hr)
  no_past_failure := h.no_past_failure
  io_failure_is_last := h.io_failure_is_last
  recorded_brightness_is_bad := h.recorded_brightness_is_bad
  recorded_index_is_bad := h.recorded_index_is_bad
  exited_is_closed := h.exited_is_closed

/-- Taking the fault of a bad operand keeps the invariant (R103, R105, R112). -/
theorem State.Inv.raiseFault {s : State} (h : s.Inv) (hr : s.halt = .running) {cause : FatalCause}
    (hbad : BadOperand cause) : (Machine.raiseFault cause s).Inv where
  closed_is_flushed_black _ hh := by cases hh
  armed_not_uninitialized := h.armed_not_uninitialized
  uninitialized_pixels := h.uninitialized_pixels
  uninitialized_trace := h.uninitialized_trace
  uninitialized_running_trace _ hh := by cases hh
  configured_iff_ready hh := by cases hh
  level_is_last_write hh := by cases hh
  lines_rest_low hh := by cases hh
  prev_is_last_frame := prev_is_last_frame_of_carried (h.carried_of_running hr)
  no_past_failure hh := by cases hh
  io_failure_is_last n hn := by cases hn; cases hbad
  recorded_brightness_is_bad v hv := by cases hv; cases hbad; assumption
  recorded_index_is_bad i hi := by cases hi; cases hbad; assumption
  exited_is_closed n hn := by cases hn

/-- Arming a block in mode Ready keeps the invariant (R89). -/
theorem State.Inv.arm {s : State} (h : s.Inv) (hm : s.mode = .ready) : s.arm.Inv where
  closed_is_flushed_black := h.closed_is_flushed_black
  armed_not_uninitialized _ := by simp [hm]
  uninitialized_pixels := h.uninitialized_pixels
  uninitialized_trace := h.uninitialized_trace
  uninitialized_running_trace := h.uninitialized_running_trace
  configured_iff_ready hr l := by rw [State.line_arm]; exact h.configured_iff_ready hr l
  level_is_last_write hr l := by rw [State.line_arm]; exact h.level_is_last_write hr l
  lines_rest_low hr := by simpa only [State.line_arm] using h.lines_rest_low hr
  prev_is_last_frame := h.prev_is_last_frame
  no_past_failure := h.no_past_failure
  io_failure_is_last := h.io_failure_is_last
  recorded_brightness_is_bad := h.recorded_brightness_is_bad
  recorded_index_is_bad := h.recorded_index_is_bad
  exited_is_closed := h.exited_is_closed

/-- A failed call keeps the invariant: the calls up to it are the start of the frame of `cur`, or no writes (R99). -/
theorem State.Inv.callFailed {s : State} (h : s.Inv) (hr : s.halt = .running) {before : List Event} {e : Event}
    (hin : s.trace.length + before.length ∈ s.failing)
    (huninit : s.mode = .uninitialized → ∀ x ∈ before ++ [e], x.isCfg = true)
    (hsent : before ++ [e] <+: frame s.cur ∨ ∀ x ∈ before ++ [e], x.isWrite = false) :
    (Machine.callFailed e (callsOk before s)).Inv where
  closed_is_flushed_black _ hh := by simp at hh
  armed_not_uninitialized := by simpa using h.armed_not_uninitialized
  uninitialized_pixels := by simpa using h.uninitialized_pixels
  uninitialized_trace hu x hx := by
    rw [callFailed_mode, callsOk_mode] at hu
    rw [callFailed_trace, callsOk_trace, List.append_assoc] at hx
    rcases List.mem_append.1 hx with hx | hx
    · exact h.uninitialized_trace hu x hx
    · exact huninit hu x hx
  uninitialized_running_trace _ hh := by simp at hh
  configured_iff_ready hh := by simp at hh
  level_is_last_write hh := by simp at hh
  lines_rest_low hh := by simp at hh
  prev_is_last_frame := by
    have htrace : (Machine.callFailed e (callsOk before s)).trace = s.trace ++ (before ++ [e]) := by simp
    rcases hsent with hcut | hquiet
    · exact ⟨s.trace, before ++ [e], htrace, by simpa using h.carried_of_running hr,
        fun _ => ⟨by simpa using hcut, _, callFailed_halt _ _⟩⟩
    · refine prev_is_last_frame_of_carried ?_
      rw [htrace, callFailed_prev, callsOk_prev]
      exact (h.carried_of_running hr).append_quiet hquiet
  no_past_failure hh := by simp at hh
  io_failure_is_last n hn := by
    have hn' : s.trace.length + before.length = n := by simpa using hn
    subst hn'
    exact ⟨by simp [Nat.add_assoc], by simpa using hin⟩
  recorded_brightness_is_bad v hv := by simp at hv
  recorded_index_is_bad i hi := by simp at hi
  exited_is_closed n hn := by simp at hn

/-- The calls of a running block move the trace past no failure, when they are ok. -/
theorem no_past_failure_append {s : State} {es : List Event} (h : ∀ n ∈ s.failing, s.trace.length ≤ n)
    (hok : s.NextCallsOk es.length) : ∀ n ∈ s.failing, (s.trace ++ es).length ≤ n := by
  intro n hn
  rw [List.length_append]
  by_contra hlt
  have hle := h n hn
  have hin : s.trace.length + (n - s.trace.length) ∈ s.failing := by rwa [Nat.add_sub_cancel' hle]
  exact hok _ (by omega) hin

/-! ### SETUP (R85) -/

theorem setupCalls_isCfg (o : Config.SetupOrder) : ∀ e ∈ setupCalls o, e.isCfg = true := by cases o <;> decide

theorem isWrite_of_isCfg {e : Event} (h : e.isCfg = true) : e.isWrite = false := by
  cases e <;> simp_all [Event.isCfg, Event.isWrite]

theorem setupCalls_afterAll (o : Config.SetupOrder) (l : Line) (x : LineState) :
    x.afterAll l (setupCalls o) = { x with configured := true } := by
  rw [setupCalls, LineState.afterAll_cons, LineState.afterAll_cons, LineState.afterAll_nil, after_setupCalls]

/-- SETUP writes no level. -/
theorem setupCalls_level (o : Config.SetupOrder) (l : Line) (start : Option Bool) :
    levelAfter l start (setupCalls o) = start := rfl

/-- A completed SETUP keeps the invariant: nothing has been written yet. -/
theorem State.Inv.setup_done {s : State} (h : s.Inv) (hr : s.halt = .running) (hm : s.mode = .uninitialized)
    (hok : s.NextCallsOk 2) : ((callsOk (setupCalls Config.setupOrder) s).withMode .ready).Inv := by
  have hline : ∀ l, ((callsOk (setupCalls Config.setupOrder) s).withMode .ready).line l =
      { configured := true, level := none } := by
    intro l
    have hlevel : (s.line l).level = none := by
      rw [h.level_is_last_write hr l, h.uninitialized_running_trace hm hr]; rfl
    rw [State.line_withMode, callsOk_line, setupCalls_afterAll, hlevel]
  have htrace : s.trace = [] := h.uninitialized_running_trace hm hr
  exact {
    closed_is_flushed_black := by simp
    armed_not_uninitialized := by simp
    uninitialized_pixels := by simp
    uninitialized_trace := by simp
    uninitialized_running_trace := by simp
    configured_iff_ready := fun _ l => by rw [hline]; rfl
    level_is_last_write := fun _ l => by
      rw [hline, State.withMode_trace, callsOk_trace, htrace, List.nil_append, setupCalls_level]
    lines_rest_low := fun _ => .inl fun l => by rw [hline]
    prev_is_last_frame := prev_is_last_frame_of_carried (by
      simpa using (h.carried_of_running hr).append_quiet fun e he => isWrite_of_isCfg (setupCalls_isCfg _ e he))
    no_past_failure := fun _ => by
      simpa using no_past_failure_append (es := setupCalls Config.setupOrder) (h.no_past_failure hr) hok
    io_failure_is_last := by simp [hr]
    recorded_brightness_is_bad := by simp [hr]
    recorded_index_is_bad := by simp [hr]
    exited_is_closed := by simp [hr] }

theorem State.Inv.setup {s t : State} (h : s.Inv) (hr : s.halt = .running) (hm : s.mode = .uninitialized)
    (ht : (setupBody s).Leaves t) : t.Inv := by
  rcases setup_leaves ht with ⟨hok, rfl⟩ | ⟨before, e, after, hcalls, hin, rfl⟩
  · exact h.setup_done hr hm hok
  · have hcfg : ∀ x ∈ before ++ [e], x.isCfg = true := fun x hx =>
      setupCalls_isCfg Config.setupOrder x (by rw [hcalls, List.append_cons]; exact List.mem_append_left _ hx)
    exact h.callFailed hr hin (fun _ => hcfg) (.inr fun x hx => isWrite_of_isCfg (hcfg x hx))

/-! ### SHOW (R86) -/

/-- After a frame a line is as configured as before, and low (R82). -/
theorem LineState.afterAll_frame (l : Line) (c : Strip) (x : LineState) :
    x.afterAll l (frame c) = { x with level := some false } := by
  have hconf := LineState.afterAll_configured (frame_writes c) l x
  have hlevel := (LineState.afterAll_level l (frame c) x).trans (frameLeavesLinesLow c l x.level)
  cases hx : x.afterAll l (frame c)
  simp_all

/-- A frame committed keeps the invariant. -/
theorem State.Inv.show_done {s : State} (h : s.Inv) (hr : s.halt = .running) (hm : s.mode = .ready)
    (hok : s.NextCallsOk 906) : (commit (callsOk (frame s.cur) s)).Inv := by
  have hline : ∀ l, (commit (callsOk (frame s.cur) s)).line l = { s.line l with level := some false } := fun l => by
    rw [State.line_commit, callsOk_line, LineState.afterAll_frame]
  exact {
    closed_is_flushed_black := by simp [hm]
    armed_not_uninitialized := by simp [hm]
    uninitialized_pixels := by simp [hm]
    uninitialized_trace := by simp [hm]
    uninitialized_running_trace := by simp [hm]
    configured_iff_ready := fun _ l => by
      rw [hline, commit_mode, callsOk_mode]
      exact h.configured_iff_ready hr l
    level_is_last_write := fun _ l => by
      rw [hline, commit_trace, callsOk_trace, levelAfter_append, frameLeavesLinesLow]
    lines_rest_low := fun _ => .inr fun l => by rw [hline]
    prev_is_last_frame := prev_is_last_frame_of_carried (.of_frame s.trace s.cur)
    no_past_failure := fun _ => by
      simpa using no_past_failure_append (es := frame s.cur) (h.no_past_failure hr) (by rwa [frame_length])
    io_failure_is_last := by simp [hr]
    recorded_brightness_is_bad := by simp [hr]
    recorded_index_is_bad := by simp [hr]
    exited_is_closed := by simp [hr] }

/-- A running block that is set up has something to flush only in mode Ready (R30 (c)). -/
theorem State.Inv.ready_of_changed {s : State} (h : s.Inv) (hr : s.halt = .running) (hm : s.mode ≠ .uninitialized)
    (hc : s.cur ≠ s.prev) : s.mode = .ready := by
  cases hmode : s.mode with
  | uninitialized => exact absurd hmode hm
  | ready => rfl
  | closed => exact absurd (h.closed_is_flushed_black hmode hr).1 hc

theorem State.Inv.showBody {s t : State} (h : s.Inv) (hr : s.halt = .running) (hm : s.mode ≠ .uninitialized)
    (ht : (Machine.showBody s).Leaves t) : t.Inv := by
  rcases show_leaves ht with ⟨-, rfl⟩ | ⟨hc, hok, rfl⟩ | ⟨hc, before, e, after, hframe, hin, rfl⟩
  · exact h
  · exact h.show_done hr (h.ready_of_changed hr hm hc) hok
  · exact h.callFailed hr hin (fun hu => absurd hu hm) (.inl ⟨after, by rw [hframe, ← List.append_cons]⟩)

/-! ### CLOSE (R87, R88) and the interrupt (R111) -/

/-- The clear of CLOSE keeps the invariant: in mode Closed it changes nothing. -/
theorem State.Inv.clearColours {s : State} (h : s.Inv) (hr : s.halt = .running) (hm : s.mode ≠ .uninitialized) :
    (Machine.clearColours s).Inv := by
  cases hmode : s.mode with
  | uninitialized => exact absurd hmode hm
  | ready => exact h.withCur hr hmode _
  | closed => rw [(h.clearColours_closed hr hmode).1]; exact h

/-- A completed SHOW leaves the block running, its mode and `cur` as before, and nothing to flush. -/
theorem showBody_done_flushed {s t : State} (h : showBody s = .done t) :
    t.halt = s.halt ∧ t.mode = s.mode ∧ t.cur = s.cur ∧ t.prev = s.cur := by
  rcases showBody_done h with ⟨hc, rfl⟩ | ⟨-, rfl, -⟩
  · exact ⟨rfl, rfl, rfl, hc.symm⟩
  · exact ⟨rfl, rfl, rfl, rfl⟩

/-- The release of a flushed black strip and mode Closed keep the invariant. -/
theorem State.Inv.release {s : State} (h : s.Inv) (hr : s.halt = .running) (hf : s.trace.length ∉ s.failing)
    (hflushed : s.cur = s.prev) (hblack : ∀ i, (s.cur.get i).Black) : ((callOk .rel s).withMode .closed).Inv := by
  have hline : ∀ l, ((callOk .rel s).withMode .closed).line l = { s.line l with configured := false } := fun l => by
    rw [State.line_withMode, callOk_line, LineState.after_rel]
  have hok : s.NextCallsOk 1 := fun k hk => by rwa [Nat.lt_one_iff.1 hk]
  exact {
    closed_is_flushed_black := fun _ _ => ⟨hflushed, hblack⟩
    armed_not_uninitialized := by simp
    uninitialized_pixels := by simp
    uninitialized_trace := by simp
    uninitialized_running_trace := by simp
    configured_iff_ready := fun _ l => by rw [hline]; rfl
    level_is_last_write := fun _ l => by
      rw [hline, State.withMode_trace, callOk_trace, levelAfter_append, ← h.level_is_last_write hr l]; rfl
    lines_rest_low := fun _ => by simpa only [hline] using h.lines_rest_low hr
    prev_is_last_frame := prev_is_last_frame_of_carried (by
      simpa using (h.carried_of_running hr).append_quiet (as := [.rel]) fun e he => by
        rw [List.mem_singleton.1 he]; rfl)
    no_past_failure := fun _ => by simpa using no_past_failure_append (es := [.rel]) (h.no_past_failure hr) hok
    io_failure_is_last := by simp [hr]
    recorded_brightness_is_bad := by simp [hr]
    recorded_index_is_bad := by simp [hr]
    exited_is_closed := by simp [hr] }

theorem State.Inv.closeBody {s t : State} (h : s.Inv) (hr : s.halt = .running) (hm : s.mode ≠ .uninitialized)
    (ht : (Machine.closeBody s).Leaves t) : t.Inv := by
  have hclear : (Machine.clearColours s).Inv := h.clearColours hr hm
  rcases close_leaves ht with hs | ⟨u, hu, hend⟩
  · exact hclear.showBody hr hm (.inr hs)
  · have hinv : u.Inv := hclear.showBody hr hm (.inl hu)
    obtain ⟨hhalt, hmode, hcur, hprev⟩ := showBody_done_flushed hu
    have hur : u.halt = .running := hhalt.trans hr
    rcases hend with ⟨hf, rfl⟩ | ⟨hf, rfl⟩
    · have hum : u.mode ≠ .uninitialized := fun hu' => hm (hmode.symm.trans hu')
      have hfail := hinv.callFailed (before := []) (e := .rel) hur hf (fun hu' => absurd hu' hum)
        (.inr fun x hx => by rw [List.mem_singleton.1 hx]; rfl)
      rwa [callsOk_nil] at hfail
    · refine hinv.release hur hf (hcur.trans hprev.symm) fun i => ?_
      rw [hcur, clearColours_cur, Strip.get_setAllColours]
      exact ⟨rfl, rfl, rfl⟩

/-- The exit after an interrupt-driven close keeps the invariant (R111). -/
theorem State.Inv.exited {s : State} (h : s.Inv) (hr : s.halt = .running) (hm : s.mode = .closed) :
    (s.withHalt (.exited Config.exitInt.val)).Inv where
  closed_is_flushed_black _ hh := by cases hh
  armed_not_uninitialized := h.armed_not_uninitialized
  uninitialized_pixels := h.uninitialized_pixels
  uninitialized_trace := h.uninitialized_trace
  uninitialized_running_trace _ hh := by cases hh
  configured_iff_ready hh := by cases hh
  level_is_last_write hh := by cases hh
  lines_rest_low hh := by cases hh
  prev_is_last_frame := prev_is_last_frame_of_carried (h.carried_of_running hr)
  no_past_failure hh := by cases hh
  io_failure_is_last n hn := by cases hn
  recorded_brightness_is_bad v hv := by cases hv
  recorded_index_is_bad i hi := by cases hi
  exited_is_closed n hn := by cases hn; exact ⟨hm, rfl⟩

/-! ### Commands, steps and runs -/

/-- Every command keeps the invariant. -/
theorem State.Inv.exec {s t : State} (h : s.Inv) {i : Instr} (ht : Machine.exec i s = .next t) : t.Inv := by
  rcases exec_next ht with ⟨-, rfl⟩ | ⟨hr, hm, hb⟩
  · exact h
  rcases Instr.setter_or i with hi | rfl | rfl | rfl | ⟨en, rfl⟩
  · have hready : s.mode = .ready := by
      rcases hi with ⟨_, _, _, _, rfl⟩ | ⟨_, _, _, rfl⟩ | ⟨_, rfl⟩ | ⟨_, _, rfl⟩ | rfl <;>
        exact (Mode.isReady_iff _).1 (by rwa [modeTakes_eq] at hm)
    rcases setter_leaves hi hb with ⟨c, rfl⟩ | ⟨cause, hbad, rfl⟩
    · exact h.withCur hr hready c
    · exact h.raiseFault hr hbad
  · rw [modeTakes_eq, Mode.isUninitialized_iff] at hm
    exact h.setup hr hm hb
  · rw [modeTakes_eq, Mode.isReady_iff] at hm
    exact h.showBody hr (by simp [hm]) hb
  · rw [modeTakes_eq, Mode.takesClose_iff] at hm
    exact h.closeBody hr hm hb
  · rw [modeTakes_eq, Mode.isReady_iff] at hm
    cases Attempt.leaves_done.1 hb
    cases en with
    | false => exact h
    | true => exact h.arm hm

/-- The interrupt keeps the invariant. -/
theorem State.Inv.takeInterrupt {s t : State} (h : s.Inv) (ht : Machine.takeInterrupt s = .next t) : t.Inv := by
  rcases takeInterrupt_leaves ht with ⟨-, rfl⟩ | ⟨hr, -, hm, hc | ⟨u, hc, rfl⟩⟩
  · exact h
  · exact h.closeBody hr hm (.inr hc)
  · obtain ⟨hhalt, hmode⟩ := closeBody_done_halt hc
    exact (h.closeBody hr hm (.inl hc)).exited (hhalt.trans hr) hmode

/-- Settles O58: the reset, an idle step, the interrupt, a command and a rejected bundle each keep the invariant. -/
theorem stepKeepsInvariant : Obligations.StepKeepsInvariant := by
  intro s t h ht
  by_cases hnr : s.NoResetNext
  · rcases step_next_cases hnr ht with ⟨-, rfl⟩ | ⟨rest, -, ht⟩ | ⟨w, rest, i, -, -, ht⟩ | ⟨w, rest, e, -, -, ht⟩
    · exact h
    · exact (h.withInputs rest).takeInterrupt ht
    · exact (h.withInputs rest).exec ht
    · obtain ⟨-, rfl⟩ := rejectBundle_next ht
      exact h.withInputs rest
  · simp only [State.NoResetNext, not_forall, not_not] at hnr
    obtain ⟨failing, rest, hi⟩ := hnr
    rw [step_reset hi] at ht
    cases ht
    exact inv_resetTo failing _

/-- Settles O57: the state after reset is what the reset input leaves. -/
theorem startMeetsInvariant : Obligations.StartMeetsInvariant :=
  fun inputs failing => inv_resetTo failing (State.reset.withInputs inputs)

/-- A run from a state that meets the invariant leads to one that does. -/
theorem State.Inv.run {s t : State} (h : s.Inv) (n : Nat) (ht : Sys2Proof.core.run n s = .next t) : t.Inv := by
  induction n generalizing s with
  | zero => cases ht; exact h
  | succ n ih =>
    simp only [Host.Core.run] at ht
    cases hs : Sys2Proof.core.step s with
    | next u => rw [hs] at ht; exact ih (stepKeepsInvariant s u h hs) ht
    | fault r => rw [hs] at ht; cases ht
    | refused r => rw [hs] at ht; cases ht

/-- Settles O59. -/
theorem runsMeetInvariant : Obligations.RunsMeetInvariant :=
  fun inputs failing n _ ht => (startMeetsInvariant inputs failing).run n ht

end Sys2Proof.Machine
end

-- Proofs about SHOW and CLOSE (42_controller.md R86 to R88): the whole frame, the cut frame, the release.
section
/-! PROOFS. 42_controller.md R86 to R88: what SHOW and CLOSE leave when every call is ok, when a write of the frame
fails, and when the release fails (43_line_driver.md R99). -/

namespace Sys2Proof.Machine

/-! ### A frame, whole or cut -/

theorem State.LinesConfigured.line {s : State} (h : s.LinesConfigured) (l : Line) : (s.line l).configured = true := by
  cases l with
  | clk => exact h.1
  | dat => exact h.2

/-- SHOW of a changed strip with 906 ok calls sends its frame and commits it. -/
theorem showBody_of_ok {s : State} (hc : s.cur ≠ s.prev) (hl : s.LinesConfigured) (hok : s.NextCallsOk 906) :
    showBody s = .done (commit (callsOk (frame s.cur) s)) :=
  showBody_ok hc hl.line fun k hk => hok k (by rwa [frame_length] at hk)

/-- What is left of a frame whose write `k` failed. -/
def cutFrame (k : Nat) (s : State) : State :=
  callFailed ((frame s.cur)[k]?.getD .rel) (callsOk ((frame s.cur).take k) s)

/-- SHOW of a changed strip whose write `k` is the first to fail is cut there (R81). -/
theorem showBody_of_failure {s : State} (hc : s.cur ≠ s.prev) (hl : s.LinesConfigured) {k : Nat} (hk : k < 906)
    (hok : s.NextCallsOk k) (hf : s.trace.length + k ∈ s.failing) : showBody s = .raised (cutFrame k s) := by
  have hlt : k < (frame s.cur).length := by rwa [frame_length]
  rw [showBody_changed hc, issueCalls_writes_cut (frame_writes _) hl.line hlt hok hf, Attempt.andThen_raised, cutFrame,
    List.getElem?_eq_getElem hlt, Option.getD_some]

section
variable {s : State} {k : Nat} (hk : k < 906)
include hk

theorem frame_take_succ : (frame s.cur).take k ++ [(frame s.cur)[k]?.getD .rel] = (frame s.cur).take (k + 1) := by
  have hlt : k < (frame s.cur).length := by rwa [frame_length]
  rw [List.getElem?_eq_getElem hlt, Option.getD_some, List.take_append_getElem]

theorem frame_take_length : ((frame s.cur).take k).length = k := by
  rw [List.length_take, frame_length, min_eq_left hk.le]

theorem cutFrame_halt : (cutFrame k s).halt = .fatal (.ioFailure (s.trace.length + k)) := by
  rw [cutFrame, callFailed_halt, callsOk_trace, List.length_append, frame_take_length hk]

theorem cutFrame_trace : (cutFrame k s).trace = s.trace ++ (frame s.cur).take (k + 1) := by
  rw [cutFrame, callFailed_trace, callsOk_trace, List.append_assoc, frame_take_succ hk]

/-- After the failed write a line is as after the `k` writes before it or as after `k + 1` (R99). -/
theorem cutFrame_line (l : Line) :
    (cutFrame k s).line l = (s.line l).afterAll l ((frame s.cur).take k) ∨
    (cutFrame k s).line l = (s.line l).afterAll l ((frame s.cur).take (k + 1)) := by
  have hsucc : (s.line l).afterAll l ((frame s.cur).take (k + 1)) =
      ((callsOk ((frame s.cur).take k) s).line l).after l ((frame s.cur)[k]?.getD .rel) := by
    rw [← frame_take_succ hk, ← callsOk_line, callsOk_append, callsOk_cons, callsOk_nil, callOk_line]
  rw [hsucc, ← callsOk_line]
  exact callFailed_line _ _ l

/-- The flag and the level of a line after a cut frame. -/
theorem cutFrame_configured_level (l : Line) :
    ((cutFrame k s).line l).configured = (s.line l).configured ∧
    (((cutFrame k s).line l).level = levelAfter l (s.line l).level ((frame s.cur).take k) ∨
      ((cutFrame k s).line l).level = levelAfter l (s.line l).level ((frame s.cur).take (k + 1))) := by
  have hwrites : ∀ n, AllWrites ((frame s.cur).take n) := fun n e he => frame_writes _ e (List.mem_of_mem_take he)
  rcases cutFrame_line hk l with h | h <;>
    rw [h, LineState.afterAll_configured (hwrites _), LineState.afterAll_level]
  · exact ⟨rfl, .inl rfl⟩
  · exact ⟨rfl, .inr rfl⟩

end

/-! ### SHOW (R86) -/

/-- Settles O40. -/
theorem showSendsFrameAndCommits : Obligations.ShowSendsFrameAndCommits := by
  intro s h hc hl hok
  refine ⟨_, exec_ready_done h (by simp) (showBody_of_ok hc hl hok), rfl, rfl, commit_changed _, fun l => ?_, rfl⟩
  rw [State.line_commit, callsOk_line, LineState.afterAll_frame]

/-- Settles O41. -/
theorem showFailureCutsFrame : Obligations.ShowFailureCutsFrame := by
  intro s k h hc hl hk hok hf
  refine ⟨_, exec_ready_raised h (by simp) (showBody_of_failure hc hl hk hok hf), cutFrame_halt hk, cutFrame_trace hk,
    fun l => ?_, by simp [cutFrame]⟩
  obtain ⟨hconf, hlevel⟩ := cutFrame_configured_level hk l
  exact ⟨hconf.trans (hl.line l), hlevel⟩

/-! ### CLOSE (R87, R88) -/

/-- CLOSE blackens each pixel and keeps its brightness. -/
theorem clearColours_get (s : State) (i : Fin 8) :
    (clearColours s).cur.get i = { s.cur.get i with R := 0, G := 0, B := 0 } := by
  rw [clearColours_cur, Strip.get_setAllColours]
  rfl

/-- No frame is due: `prev` is the blackened `cur`. -/
theorem no_frame_due {s : State} (h : ∀ i, s.prev.get i = { s.cur.get i with R := 0, G := 0, B := 0 }) :
    (clearColours s).cur = (clearColours s).prev :=
  Strip.ext_get fun i => (clearColours_get s i).trans (h i).symm

/-- A frame is due: some pixel of `prev` is not the blackened one of `cur`. -/
theorem frame_due {s : State} (h : ∃ i, s.prev.get i ≠ { s.cur.get i with R := 0, G := 0, B := 0 }) :
    (clearColours s).cur ≠ (clearColours s).prev := by
  obtain ⟨i, hi⟩ := h
  intro heq
  exact hi (by rw [← clearColours_get, heq, clearColours_prev])

/-- A CLOSE whose release fails. -/
theorem closeBody_of_show_rel_failed {s u : State} (hu : showBody (clearColours s) = .done u)
    (hf : u.trace.length ∈ u.failing) : closeBody s = .raised (callFailed .rel u) := by
  rw [closeBody, hu, Attempt.andThen_done, issueCall_failed rfl hf, Attempt.andThen_raised]

/-- A CLOSE whose SHOW faults. -/
theorem closeBody_of_show_raised {s u : State} (hu : showBody (clearColours s) = .raised u) :
    closeBody s = .raised u := by
  rw [closeBody, hu, Attempt.andThen_raised, Attempt.andThen_raised]

/-- Settles O42. -/
theorem closeWithoutFrame : Obligations.CloseWithoutFrame := by
  intro s h hok hblack
  have hshow : showBody (clearColours s) = .done (clearColours s) := showBody_unchanged (no_frame_due hblack)
  have hbody : commandBody .close s = .done ((callOk .rel (clearColours s)).withMode .closed) :=
    closeBody_of_show hshow (hok 0 (by decide))
  refine ⟨_, exec_ready_done h (by simp) hbody, rfl, no_frame_due hblack, rfl, fun l => ?_, rfl⟩
  rw [State.line_withMode, callOk_line, LineState.after_rel, clearColours_line]

/-- The black frame of CLOSE, sent whole and committed. -/
theorem close_show_of_ok {s : State} (hl : s.LinesConfigured) (hok : s.NextCallsOk 906)
    (hdue : ∃ i, s.prev.get i ≠ { s.cur.get i with R := 0, G := 0, B := 0 }) :
    showBody (clearColours s) = .done (commit (callsOk (frame (clearColours s).cur) (clearColours s))) :=
  showBody_of_ok (frame_due hdue) hl hok

/-- The call after the black frame has the position 906 further on. -/
theorem close_show_trace_length (s : State) :
    (commit (callsOk (frame (clearColours s).cur) (clearColours s))).trace.length = s.trace.length + 906 := by
  rw [commit_trace, callsOk_trace, List.length_append, frame_length, clearColours_trace]

/-- The lines after the black frame. -/
theorem close_show_line (s : State) (l : Line) :
    (commit (callsOk (frame (clearColours s).cur) (clearColours s))).line l =
      { s.line l with level := some false } := by
  rw [State.line_commit, callsOk_line, LineState.afterAll_frame, clearColours_line]

/-- Settles O43. -/
theorem closeSendsBlackFrame : Obligations.CloseSendsBlackFrame := by
  intro s h hl hok hdue
  have hshow := close_show_of_ok hl (fun k hk => hok k (by omega)) hdue
  have hrel : (commit (callsOk (frame (clearColours s).cur) (clearColours s))).trace.length ∉ s.failing := by
    rw [close_show_trace_length]
    exact hok 906 (by decide)
  refine ⟨_, exec_ready_done h (by simp) (closeBody_of_show hshow hrel), rfl, clearColours_get s, rfl, rfl,
    fun l => ?_, rfl⟩
  rw [State.line_withMode, callOk_line, LineState.after_rel, close_show_line]

/-- Settles O44: the SHOW of the blackened strip is cut. -/
theorem closeFailureInFrame : Obligations.CloseFailureInFrame := by
  intro s k h hl hk hok hf hdue
  have hshow : showBody (clearColours s) = .raised (cutFrame k (clearColours s)) :=
    showBody_of_failure (frame_due hdue) hl hk hok hf
  refine ⟨_, exec_ready_raised h (by simp) (closeBody_of_show_raised hshow), cutFrame_halt hk,
    by simpa [cutFrame] using clearColours_get s, cutFrame_trace hk, fun l => ?_, by simp [cutFrame]⟩
  obtain ⟨hconf, hlevel⟩ := cutFrame_configured_level (s := clearColours s) hk l
  rw [clearColours_line] at hconf hlevel
  exact ⟨hconf.trans (hl.line l), hlevel⟩

/-- A failed release clears each flag or leaves it, and writes no level (R98, R99). -/
theorem callFailed_rel_keeps (u : State) (l : Line) :
    (((callFailed .rel u).line l).configured = (u.line l).configured ∨
      ((callFailed .rel u).line l).configured = false) ∧
    ((callFailed .rel u).line l).level = (u.line l).level := by
  rcases callFailed_line .rel u l with h | h <;> rw [h]
  · exact ⟨.inl rfl, rfl⟩
  · exact ⟨.inr rfl, rfl⟩

/-- Settles O45: the release is the call that fails, with no frame before it or with one sent and committed. -/
theorem closeFailureAtRelease : Obligations.CloseFailureAtRelease := by
  intro s h
  refine ⟨fun hblack hf => ?_, fun hdue hl hok hf => ?_⟩
  · have hshow : showBody (clearColours s) = .done (clearColours s) := showBody_unchanged (no_frame_due hblack)
    refine ⟨_, exec_ready_raised h (by simp) (closeBody_of_show_rel_failed hshow hf), rfl, h.2, no_frame_due hblack,
      rfl, rfl, fun l => ?_, rfl⟩
    simpa only [clearColours_line] using callFailed_rel_keeps (clearColours s) l
  · have hshow := close_show_of_ok hl hok hdue
    have hlen := close_show_trace_length s
    have hrel : (commit (callsOk (frame (clearColours s).cur) (clearColours s))).trace.length ∈ s.failing := by
      rwa [hlen]
    refine ⟨_, exec_ready_raised h (by simp) (closeBody_of_show_rel_failed hshow hrel), by rw [callFailed_halt, hlen],
      h.2, clearColours_get s, rfl, rfl, fun l => ?_, rfl⟩
    simpa only [close_show_line] using
      callFailed_rel_keeps (commit (callsOk (frame (clearColours s).cur) (clearColours s))) l

/-- A line that is not configured is released already. -/
theorem LineState.after_rel_of_not_configured {l : Line} {x : LineState} (h : x.configured = false) :
    x.after l .rel = x := by
  rw [LineState.after_rel, ← h]

/-- Settles O46: in mode Closed nothing is left to clear, to send or to release. -/
theorem secondCloseOnlyReleases : Obligations.SecondCloseOnlyReleases := by
  rintro s hinv ⟨hr, hm⟩
  have htakes : modeTakes .close s.mode = true := by rw [hm]; rfl
  have hconf : ∀ l, (s.line l).configured = false := fun l => by rw [hinv.configured_iff_ready hr l, hm]; rfl
  obtain ⟨hclear, hflushed⟩ := hinv.clearColours_closed hr hm
  have hshow : showBody (clearColours s) = .done s := by rw [hclear, showBody_unchanged hflushed]
  refine ⟨fun hok => ?_, fun hf => ?_⟩
  · have hbody : commandBody .close s = .done ((callOk .rel s).withMode .closed) :=
      closeBody_of_show hshow (hok 0 (by decide))
    rw [exec_of_done hr htakes hbody]
    refine congrArg _ (State.ext_fields rfl rfl hm.symm rfl rfl ?_ ?_ rfl rfl rfl rfl)
    · exact LineState.after_rel_of_not_configured (l := .clk) (hconf .clk)
    · exact LineState.after_rel_of_not_configured (l := .dat) (hconf .dat)
  · have hline : ∀ l, (callFailed .rel s).line l = s.line l := fun l => by
      rcases callFailed_line .rel s l with h | h <;> rw [h]
      exact LineState.after_rel_of_not_configured (hconf l)
    have hclk : (callFailed .rel s).clk = s.clk := hline .clk
    have hdat : (callFailed .rel s).dat = s.dat := hline .dat
    exact ⟨_, exec_of_raised hr htakes (closeBody_of_show_rel_failed hshow hf), by simp, by simp [hm], by simp,
      fun l => by rw [hline]; exact hconf l, by simp [hclk, hdat]⟩

end Sys2Proof.Machine
end

-- Proofs about brightness numbers (40_pixel_store.md R61 to R63, 30_encoding.md R59).
section
/-! PROOFS. 40_pixel_store.md R61 to R63: the operands in the unit interval, the rounding of the product, the conversion
and its 19 operands; and 30_encoding.md R59: the decimal operands of the assembler text. -/

namespace Sys2Proof.Machine

/-! ### Rounding to 53 significant bits (R62) -/

theorem distance_cast (a b : Nat) : (distance a b : ℚ) = |(a : ℚ) - b| := by
  unfold distance
  rcases le_total a b with h | h
  · rw [Nat.sub_eq_zero_of_le h, zero_add, Nat.cast_sub h, abs_sub_comm, abs_of_nonneg (by simpa using h)]
  · rw [Nat.sub_eq_zero_of_le h, add_zero, Nat.cast_sub h, abs_of_nonneg (by simpa using h)]

theorem Fits53.of_lt {q : Nat} (h : q < 2 ^ 53) (k : Nat) : Fits53 (q * 2 ^ k) := ⟨q, k, h, rfl⟩

theorem Fits53.mul_two_pow {q : Nat} (h : Fits53 q) (j : Nat) : Fits53 (q * 2 ^ j) := by
  obtain ⟨m, k, hm, rfl⟩ := h
  exact ⟨m, k + j, hm, by rw [pow_add, mul_assoc]⟩

theorem Fits53.finiteValue {q : Nat} (h : Fits53 q) : FiniteValue q := by
  obtain ⟨m, k, hm, rfl⟩ := h
  exact ⟨m, k, hm, by omega, .inl (by push_cast; rw [zpow_natCast])⟩

theorem roundHalfEven_le (n d : Nat) : roundHalfEven n d ≤ n / d + 1 := by
  unfold roundHalfEven
  split_ifs <;> omega

/-- The product reaches the 54th bit: its unit, and its size in that unit. -/
theorem log2_of_large {p : Nat} (hp : 2 ^ 53 ≤ p) : 53 ≤ p.log2 ∧ 2 ^ p.log2 ≤ p ∧ p < 2 ^ 53 * 2 ^ (p.log2 - 52) := by
  have hne : p ≠ 0 := by omega
  have h53 : 53 ≤ p.log2 := (Nat.le_log2 hne).2 hp
  refine ⟨h53, Nat.log2_self_le hne, ?_⟩
  rw [← pow_add, show 53 + (p.log2 - 52) = p.log2 + 1 by omega]
  exact Nat.lt_log2_self

theorem fl64_of_small {p : Nat} (hp : p < 2 ^ 53) : fl64 p = p := if_pos hp

theorem fl64_of_large {p : Nat} (hp : 2 ^ 53 ≤ p) :
    fl64 p = roundHalfEven p (2 ^ (p.log2 - 52)) * 2 ^ (p.log2 - 52) := if_neg (not_lt.2 hp)

theorem fl64_fits (p : Nat) : Fits53 (fl64 p) := by
  rcases Nat.lt_or_ge p (2 ^ 53) with hp | hp
  · rw [fl64_of_small hp]
    exact ⟨p, 0, hp, by simp⟩
  · obtain ⟨-, -, hlt⟩ := log2_of_large hp
    rw [fl64_of_large hp]
    have hq := roundHalfEven_le p (2 ^ (p.log2 - 52))
    have hdiv : p / 2 ^ (p.log2 - 52) < 2 ^ 53 := Nat.div_lt_of_lt_mul (by rwa [mul_comm])
    rcases Nat.lt_or_ge (roundHalfEven p (2 ^ (p.log2 - 52))) (2 ^ 53) with h | h
    · exact .of_lt h _
    · have heq : roundHalfEven p (2 ^ (p.log2 - 52)) = 1 * 2 ^ 53 := by omega
      rw [heq]
      exact (Fits53.of_lt (by norm_num) 53).mul_two_pow _

/-- No number of 53 bits is nearer to the product than its rounding; where one is as near, the significand of the
rounding is even. -/
theorem fl64_nearest_rat {p q : Nat} (hq : Fits53 q) :
    |(p : ℚ) - fl64 p| ≤ |(p : ℚ) - q| ∧
    (q ≠ fl64 p → |(p : ℚ) - q| = |(p : ℚ) - fl64 p| → (fl64 p / 2 ^ (p.log2 - 52)) % 2 = 0) := by
  rcases Nat.lt_or_ge p (2 ^ 53) with hp | hp
  · rw [fl64_of_small hp, sub_self, abs_zero]
    refine ⟨abs_nonneg _, fun hne heq => absurd ?_ hne⟩
    exact_mod_cast (sub_eq_zero.1 (abs_eq_zero.1 heq)).symm
  · obtain ⟨h53, hle, -⟩ := log2_of_large hp
    have hu : ((p.log2 : ℤ) - 52) = ((p.log2 - 52 : ℕ) : ℤ) := by omega
    have hunit : 0 < 2 ^ (p.log2 - 52) := by positivity
    have hround : ∀ j : ℤ, _ := fun j => roundHalfEven_nearest p hunit j
    obtain ⟨hmin, htie⟩ := grid_nearest (x := (p : ℚ)) (f := p.log2) (q := roundHalfEven p (2 ^ (p.log2 - 52)))
      (by positivity) (.inl (by rw [zpow_natCast]; exact_mod_cast hle))
      (fun j => by rw [hu, zpow_natCast]; exact_mod_cast hround j) hq.finiteValue
    rw [hu, zpow_natCast] at hmin htie
    rw [fl64_of_large hp]
    push_cast
    refine ⟨hmin, fun hne heq => ?_⟩
    rw [Nat.mul_div_cancel _ hunit]
    exact htie (by exact_mod_cast hne) heq

/-- Settles O27. -/
theorem roundingIsNearestEven : Obligations.RoundingIsNearestEven := by
  refine fun p => ⟨fl64_fits p, fun q hq => ?_, fun q hq hne heq => (fl64_nearest_rat hq).2 hne ?_⟩
  · have h := (fl64_nearest_rat (p := p) hq).1
    rw [← distance_cast, ← distance_cast] at h
    exact_mod_cast h
  · rw [← distance_cast, ← distance_cast, heq]

theorem fl64_nearest {p q : Nat} (hq : Fits53 q) : distance p (fl64 p) ≤ distance p q :=
  (roundingIsNearestEven p).2.1 q hq

/-- What fits is not rounded. -/
theorem fl64_of_fits {q : Nat} (hq : Fits53 q) : fl64 q = q := by
  have h := fl64_nearest (p := q) hq
  unfold distance at h
  omega

theorem fl64_mono {p q : Nat} (h : p ≤ q) : fl64 p ≤ fl64 q := by
  by_contra hlt
  have hp := fl64_nearest (p := p) (fl64_fits q)
  have hq := fl64_nearest (p := q) (fl64_fits p)
  unfold distance at hp hq
  have heq : p = q := by omega
  subst heq
  exact hlt le_rfl

theorem roundHalfEven_mul_right (n d : Nat) {c : Nat} (hc : 0 < c) :
    roundHalfEven (n * c) (d * c) = roundHalfEven n d := by
  have hlt : ∀ a b : Nat, a * c < b * c ↔ a < b := fun a b => Nat.mul_lt_mul_right hc
  unfold roundHalfEven
  simp only [Nat.mul_mod_mul_right, Nat.mul_div_mul_right _ _ hc, ← mul_assoc, hlt]

/-- Rounding does not depend on the scale. -/
theorem fl64_mul_two_pow (p m : Nat) : fl64 (p * 2 ^ m) = fl64 p * 2 ^ m := by
  rcases Nat.lt_or_ge p (2 ^ 53) with hp | hp
  · rw [fl64_of_small hp, fl64_of_fits (.of_lt hp m)]
  · obtain ⟨h53, hle, hlt⟩ := log2_of_large hp
    have hlog : (p * 2 ^ m).log2 = p.log2 + m := by
      rw [Nat.log2_eq_iff (by positivity), pow_add, add_right_comm, pow_add _ (p.log2 + 1)]
      exact ⟨Nat.mul_le_mul_right _ hle, Nat.mul_lt_mul_of_pos_right Nat.lt_log2_self (by positivity)⟩
    have hpm : 2 ^ 53 ≤ p * 2 ^ m := hp.trans (Nat.le_mul_of_pos_right p (by positivity))
    rw [fl64_of_large hpm, fl64_of_large hp, hlog, Nat.sub_add_comm (by omega), pow_add,
      roundHalfEven_mul_right _ _ (by positivity), mul_assoc]

/-- Below 2 ^ 58 rounding adds less than its largest unit. -/
theorem fl64_le_add {p : Nat} (hp : p ≤ 2 ^ 58) : fl64 p ≤ p + 31 := by
  have hfits : Fits53 ((p + 31) / 32 * 2 ^ 5) := by
    rcases Nat.lt_or_ge ((p + 31) / 32) (2 ^ 53) with h | h
    · exact .of_lt h 5
    · have heq : (p + 31) / 32 = 1 * 2 ^ 53 := by omega
      rw [heq]
      exact (Fits53.of_lt (by norm_num) 53).mul_two_pow _
  have hle := fl64_mono (p := p) (q := (p + 31) / 32 * 2 ^ 5) (by omega)
  rw [fl64_of_fits hfits] at hle
  omega

/-! ### The fields and the value of a pattern (R52, R61) -/

theorem binFrac_lt (v : Binary64) : binFrac v < 2 ^ 52 := (v.extractLsb' 0 52).isLt

theorem binSig_lt (v : Binary64) : binSig v < 2 ^ 53 := by
  have h := binFrac_lt v
  unfold binSig
  split_ifs <;> omega

/-- The fields make up the pattern. -/
theorem toNat_eq_fields (v : Binary64) :
    v.toNat = (if binSign v then 2 ^ 63 else 0) + binExp v * 2 ^ 52 + binFrac v := by
  have hv : v = BitVec.ofNat 64 v.toNat := BitVec.eq_of_toNat_eq (by simp)
  have hlt := v.isLt
  have hs : binSign v = decide (v.toNat / 2 ^ 63 % 2 = 1) := by conv_lhs => rw [hv, binSign_ofNat]
  have he : binExp v = v.toNat / 2 ^ 52 % 2 ^ 11 := by conv_lhs => rw [hv, binExp_ofNat]
  have hf : binFrac v = v.toNat % 2 ^ 52 := by conv_lhs => rw [hv, binFrac_ofNat]
  rw [hs, he, hf]
  simp only [decide_eq_true_eq]
  split_ifs <;> omega

theorem inUnit_iff (v : Binary64) : inUnit v = true ↔
    (binExp v = 0 ∧ binFrac v = 0) ∨
    (binSign v = false ∧ (binExp v < 1023 ∨ (binExp v = 1023 ∧ binFrac v = 0))) := by
  simp [inUnit, binIsZero]

/-- The magnitude of a number of the unit interval in units of its last place. -/
theorem zpow_binDown {v : Binary64} (h : binExp v ≤ 1075) :
    (2 : ℚ) ^ ((max (binExp v) 1 : ℤ) - 1075) = 1 / 2 ^ binDown v := by
  have hexp : (max (binExp v) 1 : ℤ) - 1075 = -(binDown v : ℤ) := by
    unfold binDown
    omega
  rw [hexp, zpow_neg, zpow_natCast, one_div]

theorem binSig_eq_zero_iff (v : Binary64) : binSig v = 0 ↔ binExp v = 0 ∧ binFrac v = 0 := by
  unfold binSig
  split_ifs with h <;> simp [h]

theorem binExp_le_of_inUnit {v : Binary64} (h : inUnit v = true) : binExp v ≤ 1023 := by
  rcases (inUnit_iff v).1 h with ⟨h, -⟩ | ⟨-, h | ⟨h, -⟩⟩ <;> omega

/-- An operand of the unit interval is its significand over a power of two. -/
theorem binValue?_of_inUnit {v : Binary64} (h : inUnit v = true) :
    binValue? v = some ((binSig v : ℚ) / 2 ^ binDown v) := by
  have hexp := binExp_le_of_inUnit h
  have hsign : (if binSign v then -1 else 1 : ℚ) * (binSig v : ℚ) = binSig v := by
    rcases (inUnit_iff v).1 h with hz | ⟨hs, -⟩
    · rw [(binSig_eq_zero_iff v).2 hz, Nat.cast_zero, mul_zero]
    · simp [hs]
  rw [binValue?, if_neg (by omega), zpow_binDown (by omega), hsign, mul_one_div]

/-- It is at most 1. -/
theorem binSig_le_of_inUnit {v : Binary64} (h : inUnit v = true) : binSig v ≤ 2 ^ binDown v := by
  rcases (inUnit_iff v).1 h with hz | ⟨-, he | ⟨he, hf⟩⟩
  · rw [(binSig_eq_zero_iff v).2 hz]
    exact Nat.zero_le _
  · exact (binSig_lt v).le.trans (Nat.pow_le_pow_right (by norm_num) (by unfold binDown; omega))
  · simp [binSig, binDown, he, hf]

/-- A positive number at most 1 has an exponent below that of 1.0, or is 1.0. -/
theorem exponent_of_le_one {v : Binary64}
    (h : (binSig v : ℚ) * (2 : ℚ) ^ ((max (binExp v) 1 : ℤ) - 1075) ≤ 1) :
    binExp v < 1023 ∨ (binExp v = 1023 ∧ binFrac v = 0) := by
  rcases Nat.lt_or_ge (binExp v) 1023 with he | he
  · exact .inl he
  have hsig : binSig v = 2 ^ 52 + binFrac v := if_neg (by omega)
  have hpow : (2 : ℚ) ^ (-52 : ℤ) ≤ (2 : ℚ) ^ ((max (binExp v) 1 : ℤ) - 1075) :=
    zpow_le_zpow_right₀ (by norm_num) (by omega)
  have hle : (binSig v : ℚ) * (2 : ℚ) ^ (-52 : ℤ) ≤ 1 := (mul_le_mul_of_nonneg_left hpow (by positivity)).trans h
  have hfrac : binFrac v = 0 := by
    have hle' : (binSig v : ℚ) ≤ 2 ^ 52 := by
      rwa [zpow_neg, ← div_eq_mul_inv, div_le_one (by positivity)] at hle
    have : binSig v ≤ 2 ^ 52 := by exact_mod_cast hle'
    omega
  refine .inr ⟨le_antisymm ?_ he, hfrac⟩
  by_contra hgt
  have hpow' : (2 : ℚ) ^ (-51 : ℤ) ≤ (2 : ℚ) ^ ((max (binExp v) 1 : ℤ) - 1075) :=
    zpow_le_zpow_right₀ (by norm_num) (by omega)
  have htwo : (binSig v : ℚ) * (2 : ℚ) ^ (-51 : ℤ) ≤ 1 := (mul_le_mul_of_nonneg_left hpow' (by positivity)).trans h
  rw [hsig, hfrac] at htwo
  norm_num at htwo

/-- Settles O26: the test reads off the fields what the value says. -/
theorem inUnitIsUnitInterval : Obligations.InUnitIsUnitInterval := by
  intro v
  constructor
  · intro h
    refine ⟨_, binValue?_of_inUnit h, by positivity, ?_⟩
    rw [div_le_one (by positivity)]
    exact_mod_cast binSig_le_of_inUnit h
  · rintro ⟨q, hq, hq0, hq1⟩
    have hpos : (0 : ℚ) < (2 : ℚ) ^ ((max (binExp v) 1 : ℤ) - 1075) := by positivity
    rw [inUnit_iff]
    rw [binValue?] at hq
    split_ifs at hq with hinf hs <;> rw [Option.some.injEq] at hq
    · rw [← binSig_eq_zero_iff]
      left
      by_contra hne
      have hsig : (0 : ℚ) < binSig v := by exact_mod_cast Nat.pos_of_ne_zero hne
      have := mul_pos hsig hpos
      linarith
    · rw [one_mul] at hq
      exact .inr ⟨by simpa using hs, exponent_of_le_one (hq.trans_le hq1)⟩

/-! ### The conversion (R62, R63) -/

theorem convertNat_eq (v : Binary64) : convertNat v = fl64 (31 * binSig v) / 2 ^ binDown v := by
  rw [convertNat, brtScale, Nat.shiftRight_eq_div_pow]

theorem exactConvert_eq (v : Binary64) : exactConvert v = 31 * binSig v / 2 ^ binDown v := rfl

theorem le_convertNat_iff (v : Binary64) (k : Nat) : k ≤ convertNat v ↔ k * 2 ^ binDown v ≤ fl64 (31 * binSig v) := by
  rw [convertNat_eq, Nat.le_div_iff_mul_le (by positivity)]

theorem le_exactConvert_iff (v : Binary64) (k : Nat) : k ≤ exactConvert v ↔ k * 2 ^ binDown v ≤ 31 * binSig v := by
  rw [exactConvert_eq, Nat.le_div_iff_mul_le (by positivity)]

section
variable {v : Binary64} (h : inUnit v = true)
include h

theorem exactConvert_le : exactConvert v ≤ 31 := by
  rw [exactConvert_eq]
  exact Nat.div_le_of_le_mul (by rw [mul_comm]; exact Nat.mul_le_mul_right _ (binSig_le_of_inUnit h))

/-- The range of R63 (a): 31 itself is a number of 53 bits, so rounding stops there. -/
theorem convertNat_le : convertNat v ≤ 31 := by
  have hle : 31 * binSig v ≤ 31 * 2 ^ binDown v := Nat.mul_le_mul_left _ (binSig_le_of_inUnit h)
  have hfl := fl64_mono hle
  rw [fl64_of_fits (.of_lt (by norm_num) _)] at hfl
  rw [convertNat_eq]
  exact Nat.div_le_of_le_mul (hfl.trans_eq (mul_comm _ _))

theorem convert_toNat : (convert v).toNat = convertNat v := by
  rw [convert, BitVec.toNat_ofNat, Nat.mod_eq_of_lt (by have := convertNat_le h; omega)]

/-- Rounding never takes the product below an integer it has reached. -/
theorem exactConvert_le_convertNat : exactConvert v ≤ convertNat v := by
  have hk := (le_exactConvert_iff v (exactConvert v)).1 le_rfl
  have hfits : Fits53 (exactConvert v * 2 ^ binDown v) := .of_lt (by have := exactConvert_le h; omega) _
  rw [le_convertNat_iff, ← fl64_of_fits hfits]
  exact fl64_mono hk

end

/-- Settles O29: on a common scale the products are in order, and rounding keeps the order whatever the scale. -/
theorem convertMonotone : Obligations.ConvertMonotone := by
  intro v w p q hv hw hp hq hpq
  rw [convert_toNat hv, convert_toNat hw, le_convertNat_iff]
  rw [binValue?_of_inUnit hv, Option.some.injEq] at hp
  rw [binValue?_of_inUnit hw, Option.some.injEq] at hq
  rw [← hp, ← hq, div_le_div_iff₀ (by positivity) (by positivity)] at hpq
  have hcommon : binSig v * 2 ^ binDown w ≤ binSig w * 2 ^ binDown v := by exact_mod_cast hpq
  have hfl : fl64 (31 * binSig v) * 2 ^ binDown w ≤ fl64 (31 * binSig w) * 2 ^ binDown v := by
    rw [← fl64_mul_two_pow, ← fl64_mul_two_pow, mul_assoc, mul_assoc]
    exact fl64_mono (Nat.mul_le_mul_left 31 hcommon)
  have hk := (le_convertNat_iff v (convertNat v)).1 le_rfl
  refine Nat.le_of_mul_le_mul_right (c := 2 ^ binDown v) ?_ (by positivity)
  calc convertNat v * 2 ^ binDown w * 2 ^ binDown v
      = convertNat v * 2 ^ binDown v * 2 ^ binDown w := by ring
    _ ≤ fl64 (31 * binSig v) * 2 ^ binDown w := Nat.mul_le_mul_right _ hk
    _ ≤ fl64 (31 * binSig w) * 2 ^ binDown v := hfl

/-! ### The 19 operands (R63 (c)) -/

/-- The pattern of the largest operand of an exponent whose product does not reach the integer `k`. -/
def justBelow (down k : Nat) : Nat := (k * 2 ^ down - 1) / 31

/-- Where rounding lifts the product of such an operand to `k`, the operand is one of the table: all exponents at
which that can happen, and all integers, one by one. -/
theorem justBelow_split : ∀ (d : Fin 6) (k : Fin 31),
    2 ^ 52 ≤ justBelow (d + 53) (k + 1) → justBelow (d + 53) (k + 1) < 2 ^ 53 →
    31 * justBelow (d + 53) (k + 1) < (k + 1) * 2 ^ (d + 53 : ℕ) →
    (k + 1) * 2 ^ (d + 53 : ℕ) ≤ fl64 (31 * justBelow (d + 53) (k + 1)) →
    (BitVec.ofNat 64 ((1075 - (d + 53)) * 2 ^ 52 + (justBelow (d + 53) (k + 1) - 2 ^ 52)), (k + 1 : ℕ)) ∈
      splitOperands := by
  decide

/-- An operand below 1.0 has 53 or more places after the point. -/
theorem binDown_of_lt_one {v : Binary64} (h : inUnit v = true) (hlt : exactConvert v < 31) : 53 ≤ binDown v := by
  rcases (inUnit_iff v).1 h with ⟨he, -⟩ | ⟨-, he | ⟨he, hf⟩⟩
  · unfold binDown; omega
  · unfold binDown; omega
  · have hone : exactConvert v = 31 := by simp [exactConvert, brtScale, binSig, binDown, he, hf]
    omega

/-- A positive operand of the unit interval with at most 58 places is its significand at its exponent. -/
theorem eq_ofNat_of_binDown_le {v : Binary64} (h : inUnit v = true) (hd : binDown v ≤ 58) :
    2 ^ 52 ≤ binSig v ∧ v = BitVec.ofNat 64 ((1075 - binDown v) * 2 ^ 52 + (binSig v - 2 ^ 52)) := by
  have hexp := binExp_le_of_inUnit h
  have hdown : binDown v = 1075 - binExp v ∧ 1017 ≤ binExp v := by unfold binDown at hd ⊢; omega
  have hsign : binSign v = false := by
    rcases (inUnit_iff v).1 h with ⟨he, -⟩ | ⟨hs, -⟩
    · omega
    · exact hs
  have hsig : binSig v = 2 ^ 52 + binFrac v := if_neg (by omega)
  have hfields := toNat_eq_fields v
  rw [hsign, if_neg Bool.false_ne_true, zero_add] at hfields
  refine ⟨by omega, BitVec.eq_of_toNat_eq ?_⟩
  rw [BitVec.toNat_ofNat, hsig, Nat.add_sub_cancel_left, hdown.1, Nat.sub_sub_self (by omega), ← hfields,
    Nat.mod_eq_of_lt v.isLt]

/-- Where the rounded product reaches an integer the exact one does not, the operand is one of the table. -/
theorem split_of_lt {v : Binary64} (h : inUnit v = true) (hlt : exactConvert v < convertNat v) :
    (v, exactConvert v + 1) ∈ splitOperands := by
  have hk : exactConvert v < 31 := hlt.trans_le (convertNat_le h)
  have hsig := binSig_lt v
  have hreach : (exactConvert v + 1) * 2 ^ binDown v ≤ fl64 (31 * binSig v) := (le_convertNat_iff v _).1 hlt
  have hbelow : 31 * binSig v < (exactConvert v + 1) * 2 ^ binDown v := by
    rw [← not_le, ← le_exactConvert_iff]
    omega
  have hadd : fl64 (31 * binSig v) ≤ 31 * binSig v + 31 := fl64_le_add (by omega)
  have hdown : binDown v ≤ 58 := by
    by_contra hgt
    have hpow : 2 ^ 59 ≤ 2 ^ binDown v := Nat.pow_le_pow_right (by norm_num) (by omega)
    have hmul : 2 ^ binDown v ≤ (exactConvert v + 1) * 2 ^ binDown v := Nat.le_mul_of_pos_left _ (Nat.succ_pos _)
    omega
  have hdown' : 53 ≤ binDown v := binDown_of_lt_one h hk
  obtain ⟨hnormal, hv⟩ := eq_ofNat_of_binDown_le h hdown
  have hjust : binSig v = justBelow (binDown v) (exactConvert v + 1) := by
    unfold justBelow
    omega
  obtain ⟨d, hd⟩ : ∃ d : Fin 6, binDown v = d + 53 := ⟨⟨binDown v - 53, by omega⟩, by simp; omega⟩
  obtain ⟨k, hke⟩ : ∃ k : Fin 31, exactConvert v = k := ⟨⟨exactConvert v, hk⟩, rfl⟩
  rw [hjust, hd, hke] at hnormal hsig hbelow hreach hv
  rw [hke, hv]
  exact justBelow_split d k hnormal hsig hbelow hreach

/-- The conversion is the floor of the exact product off the table (R63 (c)). -/
theorem convertNat_eq_exactConvert {v : Binary64} (h : inUnit v = true) (hv : ∀ k, (v, k) ∉ splitOperands) :
    convertNat v = exactConvert v :=
  le_antisymm (not_lt.1 fun hlt => hv _ (split_of_lt h hlt)) (exactConvert_le_convertNat h)

/-- Each operand of the table, evaluated. -/
theorem splitOperands_values : ∀ x ∈ splitOperands,
    inUnit x.1 = true ∧ (convert x.1).toNat = x.2 ∧ exactConvert x.1 + 1 = x.2 := by decide

/-- The exact conversion is the floor of 31 times the value. -/
theorem exactConvert_eq_floor {v : Binary64} {q : ℚ} (h : inUnit v = true) (hq : binValue? v = some q) :
    (exactConvert v : ℤ) = ⌊31 * q⌋ := by
  rw [binValue?_of_inUnit h, Option.some.injEq] at hq
  have hcast : 31 * q = ((31 * binSig v : ℕ) : ℚ) / ((2 ^ binDown v : ℕ) : ℚ) := by
    rw [← hq]; push_cast; ring
  rw [hcast, exactConvert_eq, Rat.floor_natCast_div_natCast, Int.natCast_ediv]

/-- Settles O30. -/
theorem convertIsFloorButNineteen : Obligations.ConvertIsFloorButNineteen :=
  ⟨fun _ _ h hq => exactConvert_eq_floor h hq, fun v k hk => splitOperands_values (v, k) hk,
    fun _ h hv => (convert_toNat h).trans (convertNat_eq_exactConvert h hv)⟩

/-- The conversion is the exact one, or the operand is of the table and its integer is small. -/
theorem convert_cases {v : Binary64} (h : inUnit v = true) :
    convertNat v = exactConvert v ∨
    (convertNat v ≤ 29 ∧ (exactConvert v = 0 → v = 0x3FA0842108421084)) := by
  by_cases hv : ∀ k, (v, k) ∉ splitOperands
  · exact .inl (convertNat_eq_exactConvert h hv)
  · simp only [not_forall, not_not] at hv
    obtain ⟨k, hk⟩ := hv
    have hsmall : ∀ x ∈ splitOperands, x.2 ≤ 29 ∧ (exactConvert x.1 = 0 → x.1 = 0x3FA0842108421084) := by decide
    obtain ⟨hk29, hzero⟩ := hsmall (v, k) hk
    obtain ⟨-, hconv, -⟩ := splitOperands_values (v, k) hk
    rw [convert_toNat h] at hconv
    exact .inr ⟨hconv ▸ hk29, hzero⟩

/-- The exact product reaches 31 only at 1.0. -/
theorem eq_one_of_exactConvert {v : Binary64} (h : inUnit v = true) (hv : exactConvert v = 31) :
    v = 0x3FF0000000000000 := by
  have hge := (le_exactConvert_iff v 31).1 hv.ge
  have hsig := binSig_lt v
  have hdown : binDown v ≤ 52 := by
    by_contra hgt
    have hpow : 2 ^ 53 ≤ 2 ^ binDown v := Nat.pow_le_pow_right (by norm_num) (by omega)
    omega
  have hdown' : binDown v = 52 := by have := binExp_le_of_inUnit h; unfold binDown at hdown ⊢; omega
  have hle := binSig_le_of_inUnit h
  obtain ⟨-, hpattern⟩ := eq_ofNat_of_binDown_le h (by omega)
  rw [hdown'] at hge hle hpattern
  rw [hpattern, show binSig v = 2 ^ 52 by omega]
  rfl

/-- Settles O28. -/
theorem convertRange : Obligations.ConvertRange := by
  intro v q h hq
  refine ⟨convert_toNat h, convertNat_le h, ⟨fun h31 => ?_, fun hone => ?_⟩, fun hsmall hne => ?_⟩
  · rw [convert_toNat h] at h31
    rcases convert_cases h with he | ⟨hk, -⟩
    · exact eq_one_of_exactConvert h (he ▸ h31)
    · omega
  · subst hone
    decide
  · have hfloor : exactConvert v = 0 := by
      have hq0 : 0 ≤ q := by
        obtain ⟨q', hq', hpos, -⟩ := (inUnitIsUnitInterval v).1 h
        rw [hq, Option.some.injEq] at hq'
        rwa [hq']
      have hzero : ⌊31 * q⌋ = 0 := Int.floor_eq_zero_iff.2 ⟨by positivity, by linarith⟩
      exact_mod_cast (exactConvert_eq_floor h hq).trans hzero
    rw [convert_toNat h]
    rcases convert_cases h with he | ⟨-, hzero⟩
    · exact he.trans hfloor
    · exact absurd (hzero hfloor) hne

/-! ### Decimal operands (R59) -/

/-- The sign of a pattern given as a sign and a magnitude below `2 ^ 63`. -/
theorem binSign_signed (negative : Bool) {m : Nat} (hm : m < 2 ^ 63) :
    binSign (BitVec.ofNat 64 ((if negative then 2 ^ 63 else 0) + m)) = negative := by
  rw [binSign_ofNat]
  cases negative <;> simp <;> omega

/-- The distance of two signed numbers is that of the number and the other one's signed value. -/
theorem abs_signed_sub (negative : Bool) (x y : ℚ) :
    |(if negative then -x else x) - y| = |x - (if negative then -1 else 1) * y| := by
  cases negative with
  | false => simp
  | true => rw [← abs_neg]; simp [add_comm]

theorem FiniteValue.signed {y : ℚ} (h : FiniteValue y) (negative : Bool) :
    FiniteValue ((if negative then -1 else 1) * y) := by
  cases negative with
  | false => simpa using h
  | true => simpa using h.neg

/-- The pattern of the magnitude nearest to `n / d`, with a sign, is the nearest binary64. -/
theorem nearestBinary64_of_magnitude (negative : Bool) (n : Nat) {d : Nat} (hd : 0 < d) :
    NearestBinary64 negative (n / d)
      (BitVec.ofNat 64 ((if negative then 2 ^ 63 else 0) + nearestMagnitude n d)) := by
  obtain ⟨hfinite, hinf⟩ := nearestMagnitude_spec n d hd
  unfold NearestBinary64
  by_cases hx : (n / d : ℚ) < 2 ^ 1024 - 2 ^ 970
  · obtain ⟨k, q, hmag, hq, hkq, hbound, hnear⟩ := hfinite hx
    rw [hmag]
    refine ⟨binSign_signed negative (by omega), ?_⟩
    rw [if_pos hx]
    refine ⟨_, binValue?_ofNat negative k q hq hkq hbound, fun w y hw => ?_⟩
    have hsign : (if negative then -1 else 1 : ℚ) * (if negative then -1 else 1) = 1 := by cases negative <;> norm_num
    rw [abs_signed_sub, abs_signed_sub, mul_assoc, ← mul_assoc, hsign, one_mul]
    obtain ⟨hmin, htie⟩ := hnear _ ((binValue?_finite hw).signed negative)
    refine ⟨hmin, fun hne heq => ?_⟩
    have heven : q % 2 = 0 := htie (fun hy => hne (by rw [← hy, ← mul_assoc, hsign, one_mul])) heq
    rw [BitVec.toNat_ofNat]
    split_ifs <;> omega
  · rw [hinf hx]
    refine ⟨binSign_signed negative (by norm_num), ?_⟩
    rw [if_neg hx, binExp_ofNat, binFrac_ofNat]
    cases negative <;> norm_num

/-- Settles O60: an integer is a quotient by 1, and a raw pattern below 2 ^ 64 is not cut. -/
theorem decimalOperandIsNearest : Obligations.DecimalOperandIsNearest := by
  refine ⟨fun n => ?_, fun negative digits places => ?_, fun digits n hn => Nat.mod_eq_of_lt hn⟩
  · simpa [literalBrightness] using nearestBinary64_of_magnitude false n Nat.one_pos
  · have h := nearestBinary64_of_magnitude negative digits (d := 10 ^ places) (by positivity)
    rw [Nat.cast_pow] at h
    exact h

end Sys2Proof.Machine
end
